-- ==== Sys2Proof/Word.lean ====
section
/-! DEFINITION. The word types of LS8 CORE: the byte every cell, register and address is made of, the three bits of
the flag register, and the index of a general register. -/

namespace Sys2Proof

/-- A memory cell, a general register, an address, pc: all are 8 bits wide, unsigned (00_scope.md R5, R6). -/
abbrev Byte := BitVec 8

/-- The flag register's three bits: bit 0 equal, bit 1 greater, bit 2 less (10_state.md R17). -/
abbrev FlagBits := BitVec 3

/-- The index of a general register, 0 to 7 (10_state.md R10). -/
abbrev RegIdx := Fin 8

end Sys2Proof
end

