-- ==== Sys2Proof/Syntax.lean ====
section
/-! DEFINITION. The instructions of LS8 CORE, one constructor per row of spec/opcode_table.json, in its order. -/

namespace Sys2Proof

/-- An instruction with its operand bytes as they stand in memory (30_encoding.md R51, R57). A register operand is the
whole operand byte (R55): a byte above 7 is an operand the encoding can hold and the instruction refuses with
OperandAddressError, so the syntax holds it and `Instr.wellFormed` tells it apart. -/
inductive Instr where
  /-- HALT: 41_system_and_output.md R100. -/
  | halt
  /-- LDI r, imm8: 42_data_movement.md R110. -/
  | ldi (r imm8 : Byte)
  /-- PRN r: 41_system_and_output.md R101. -/
  | prn (r : Byte)
  /-- MUL a, b: 43_alu.md R122. -/
  | mul (a b : Byte)
  /-- ADD a, b: 43_alu.md R121. -/
  | add (a b : Byte)
  /-- PUSH r: 44_stack.md R141. -/
  | push (r : Byte)
  /-- POP r: 44_stack.md R142. -/
  | pop (r : Byte)
  /-- CALL r: 45_control_transfer.md R154. -/
  | call (r : Byte)
  /-- RET: 45_control_transfer.md R155. -/
  | ret
  /-- CMP a, b: 43_alu.md R123. -/
  | cmp (a b : Byte)
  /-- JMP r: 45_control_transfer.md R151. -/
  | jmp (r : Byte)
  /-- JNE r: 45_control_transfer.md R153. -/
  | jne (r : Byte)
  /-- JEQ r: 45_control_transfer.md R152. -/
  | jeq (r : Byte)
deriving DecidableEq, Repr

end Sys2Proof
end

