-- ==== Sys2Proof/WellFormed.lean ====
section
/-! DEFINITION. When an instruction's operands are legal: every operand byte that is a register index is at most 7. -/

namespace Sys2Proof

/-- A legal register operand byte: 0 to 7 (30_encoding.md R55). -/
def regOperandOk (b : Byte) : Bool := decide (b.toNat < 8)

/-- Every register operand of the instruction is legal. Which bytes are register operands is
40_core_blocks_and_step.md R83: LDI's second operand is an immediate and is never checked; HALT and RET have none. -/
def Instr.wellFormed (i : Instr) : Bool :=
  match i with
  | .halt => true
  | .ldi r _ => regOperandOk r
  | .prn r => regOperandOk r
  | .mul a b => regOperandOk a && regOperandOk b
  | .add a b => regOperandOk a && regOperandOk b
  | .push r => regOperandOk r
  | .pop r => regOperandOk r
  | .call r => regOperandOk r
  | .ret => true
  | .cmp a b => regOperandOk a && regOperandOk b
  | .jmp r => regOperandOk r
  | .jne r => regOperandOk r
  | .jeq r => regOperandOk r

end Sys2Proof
end

