-- ==== Sys2Proof/Decode.lean ====
section
/-! DEFINITION. The opcode map, the decoder (total on any bytes, rejecting by name) and the encoder. -/

namespace Sys2Proof

/-! ### The opcode map (30_encoding.md R57) -/

/-- The 13 mnemonics of the opcode map, in its order. -/
inductive Opcode where
  | halt | ldi | prn | mul | add | push | pop | call | ret | cmp | jmp | jne | jeq
deriving DecidableEq, Repr

/-- The opcode byte of a mnemonic (30_encoding.md R57). -/
def Opcode.byte (o : Opcode) : Byte :=
  match o with
  | .halt => 0b00000001
  | .ldi  => 0b10000010
  | .prn  => 0b01000111
  | .mul  => 0b10100010
  | .add  => 0b10100000
  | .push => 0b01000101
  | .pop  => 0b01000110
  | .call => 0b01010000
  | .ret  => 0b00010001
  | .cmp  => 0b10100111
  | .jmp  => 0b01010100
  | .jne  => 0b01010110
  | .jeq  => 0b01010101

/-- Every mnemonic, in the map's order. -/
def Opcode.all : List Opcode :=
  [.halt, .ldi, .prn, .mul, .add, .push, .pop, .call, .ret, .cmp, .jmp, .jne, .jeq]

/-- The mnemonic of an opcode byte, matched on all eight bits; none for the 243 illegal bytes
(30_encoding.md R57, R58). -/
def Opcode.ofByte (ir : Byte) : Option Opcode := Opcode.all.find? fun o => o.byte == ir

/-- The field `nops` of an opcode byte, bits 7:6: the operand count (30_encoding.md R52, R53). -/
def nopsField (ir : Byte) : Byte := ir >>> 6

/-- The field `P` of an opcode byte, bit 4: the instruction manages pc itself (30_encoding.md R52, R54). -/
def setsPcField (ir : Byte) : Bool := ir.getLsbD 4

/-- How many operand bytes follow the opcode byte (30_encoding.md R53). -/
def Opcode.nops (o : Opcode) : Nat := (nopsField o.byte).toNat

/-- The instruction of a mnemonic and two operand bytes; an operand it does not have is not looked at
(30_encoding.md R51). -/
def Opcode.instr (o : Opcode) (op1 op2 : Byte) : Instr :=
  match o with
  | .halt => .halt
  | .ldi  => .ldi op1 op2
  | .prn  => .prn op1
  | .mul  => .mul op1 op2
  | .add  => .add op1 op2
  | .push => .push op1
  | .pop  => .pop op1
  | .call => .call op1
  | .ret  => .ret
  | .cmp  => .cmp op1 op2
  | .jmp  => .jmp op1
  | .jne  => .jne op1
  | .jeq  => .jeq op1

/-- The mnemonic of an instruction. -/
def Instr.opcode (i : Instr) : Opcode :=
  match i with
  | .halt => .halt
  | .ldi _ _ => .ldi
  | .prn _ => .prn
  | .mul _ _ => .mul
  | .add _ _ => .add
  | .push _ => .push
  | .pop _ => .pop
  | .call _ => .call
  | .ret => .ret
  | .cmp _ _ => .cmp
  | .jmp _ => .jmp
  | .jne _ => .jne
  | .jeq _ => .jeq

/-! ### The decoder -/

/-- Why bytes are no instruction. -/
inductive DecodeError where
  /-- There is no byte at all. -/
  | noBytes
  /-- The first byte is none of the 13 opcode bytes (30_encoding.md R58). -/
  | illegalOpcode (ir : Byte)
  /-- The list ends before the operand bytes the opcode calls for. No fetch meets this: the core fetches as many
  operand bytes as the opcode says (40_core_blocks_and_step.md R82; log 14). -/
  | missingOperand (ir : Byte)
deriving DecidableEq, Repr

/-- The decoder: the instruction at the head of the bytes, and the bytes after it. Operand bytes are taken raw
(30_encoding.md R55, R56); the operands of an illegal opcode are not examined (R59). -/
def decode (bytes : List Byte) : Except DecodeError (Instr × List Byte) :=
  match bytes with
  | [] => .error .noBytes
  | ir :: rest =>
    match Opcode.ofByte ir with
    | none => .error (.illegalOpcode ir)
    | some o =>
      match o.nops, rest with
      | 0, rest => .ok (o.instr 0 0, rest)
      | 1, op1 :: rest => .ok (o.instr op1 0, rest)
      | 2, op1 :: op2 :: rest => .ok (o.instr op1 op2, rest)
      | _, _ => .error (.missingOperand ir)

/-! ### The encoder -/

/-- The bytes of an instruction, opcode first (30_encoding.md R50, R51, R57). -/
def encode (i : Instr) : List Byte :=
  match i with
  | .halt => [0x01]
  | .ldi r imm8 => [0x82, r, imm8]
  | .prn r => [0x47, r]
  | .mul a b => [0xA2, a, b]
  | .add a b => [0xA0, a, b]
  | .push r => [0x45, r]
  | .pop r => [0x46, r]
  | .call r => [0x50, r]
  | .ret => [0x11]
  | .cmp a b => [0xA7, a, b]
  | .jmp r => [0x54, r]
  | .jne r => [0x56, r]
  | .jeq r => [0x55, r]

/-! ### A word numbered as spec/opcode_table.json numbers it -/

/-- The longest instruction's three bytes, from a word of `nbits` bits: byte k is bits 8k+7 to 8k, and every bit at
`nbits` or above is 0. The first byte goes to the lowest address (20_memory.md R31). -/
def wordBytes (nbits w : Nat) : List Byte :=
  let v := w % 2 ^ nbits
  [BitVec.ofNat 8 v, BitVec.ofNat 8 (v / 256), BitVec.ofNat 8 (v / 65536)]

/-- The instruction the decoder reads from a word of the opcode table. -/
def decodeTableWord (nbits w : Nat) : Option Instr :=
  match decode (wordBytes nbits w) with
  | .ok (i, _) => some i
  | .error _ => none

end Sys2Proof
end

