-- ==== Sys2Proof/Config.lean ====
section
/-! DEFINITION. The parameters of LS8 CORE (00_scope.md R5). The spec leaves none open, so each is a named constant;
the table's widths are the types of Word.lean. -/

namespace Sys2Proof

/-- `MEM_CELLS`: the number of memory cells (00_scope.md R5, 10_state.md R24). -/
abbrev Config.memCells : Nat := 256

/-- `NREGS`: the number of general registers (00_scope.md R5, 10_state.md R10). -/
abbrev Config.nRegs : Nat := 8

/-- `SP_INDEX`: the register that PUSH, POP, CALL and RET use (10_state.md R12). -/
abbrev Config.spIndex : RegIdx := 7

/-- `SP_RESET`: the reset value of x[7] (10_state.md R13). -/
abbrev Config.spReset : Byte := 0xF4

/-- `PC_RESET`: the reset value of pc (10_state.md R14). -/
abbrev Config.pcReset : Byte := 0x00

/-- `GPR_RESET`: the reset value of x[0] to x[6] (10_state.md R13).
UNVERIFIED, unsafe: the spec's decision D3, not the source's (log 3). -/
abbrev Config.gprReset : Byte := 0x00

/-- `FL_RESET`: the reset value of FL (10_state.md R19). UNVERIFIED, unsafe: the spec's decision D4 (log 4). -/
abbrev Config.flReset : FlagBits := 0b000

/-- `MEM_RESET`: the reset value of every memory cell (10_state.md R24), and so what a cell the memory does not list
reads as. UNVERIFIED, unsafe: the spec's decision D5 (log 5). -/
abbrev Config.memReset : Byte := 0x00

/-- `LOAD_BASE`: the address of byte 0 of a loaded image (20_memory.md R42). -/
abbrev Config.loadBase : Byte := 0x00

/-- `MAX_IMAGE`: the longest image `load` accepts, in bytes (20_memory.md R43). -/
abbrev Config.maxImage : Nat := 256

end Sys2Proof
end

