-- ==== Sys2Proof/Machine/State.lean ====
section
/-! DEFINITION. The state of LS8 CORE as plain data (10_state.md R29), the state after reset, and the reasons an outcome
other than a next state can name. -/

namespace Sys2Proof.Machine

/-- The memory: address and byte pairs in one canonical form (`Memory.wf`); an address it does not list reads as
`Config.memReset` (10_state.md R24). -/
abbrev Memory := List Host.Cell

/-- The kind of a fault that FAULT records (60_exceptions.md R170, R176). -/
inductive FaultCode where
  /-- `IllegalInstructionError`, code 1. -/
  | illegalInstruction
  /-- `OperandAddressError`, code 2. -/
  | operandAddress
deriving DecidableEq, Repr

/-- The record (code, addr, opcode) the fault latch holds after a fault (10_state.md R22, 60_exceptions.md R176). -/
structure FaultRecord where
  code : FaultCode
  /-- pc when the faulting step began. -/
  addr : Byte
  /-- The opcode byte of the faulting instruction. -/
  opcode : Byte
deriving DecidableEq, Repr

/-- The whole architectural state (10_state.md R29). -/
@[ext]
structure State where
  /-- M: the 256 memory cells (R24). -/
  mem : Memory
  /-- x[0] to x[7]; x[7] is the stack pointer (R10, R12). -/
  regs : Vector Byte 8
  /-- The program counter: between steps, the address of the next opcode byte (R14). -/
  pc : Byte
  /-- The flag register: bit 0 E, bit 1 G, bit 2 L (R17). -/
  fl : FlagBits
  /-- The running latch RUN (R21). -/
  run : Bool
  /-- The fault latch FAULT (R22). -/
  fault : Option FaultRecord
  /-- The output channel OUT, oldest value first (R25). -/
  out : List Byte
deriving DecidableEq, Repr

/-- The state after reset (10_state.md R28, 70_reset_and_hazards.md R201). pc and x[7] are the source's values; the
others are the spec's decisions D3, D4, D5, D9 (log 3, 4, 5, 9) or derived (RUN, OUT). -/
def State.reset : State where
  mem := []
  regs := #v[Config.gprReset, Config.gprReset, Config.gprReset, Config.gprReset,
             Config.gprReset, Config.gprReset, Config.gprReset, Config.spReset]
  pc := Config.pcReset
  fl := Config.flReset
  run := true
  fault := none
  out := []

/-- The reasons an operation answers `fault`. No step of the core answers one: the core's own two faults are NEXT
states, entered as 60_exceptions.md R178 says (log 9). -/
inductive Fault where
  /-- `CapacityError`: raised by the host's `load` of an image above 256 bytes, never by a step; nothing is written and
  the core goes on (20_memory.md R43, 60_exceptions.md R173). Safe: the spec names it and says that no state changes. -/
  | capacityError
deriving DecidableEq, Repr

/-- The reasons an operation answers `refused`. -/
inductive Refusal where
  /-- Raised by an arm of `exec` for an instruction that has no meaning yet; no arm does. Safe: the machine stops. -/
  | notModelled (mnemonic : String)
deriving DecidableEq, Repr

end Sys2Proof.Machine
end

