-- ==== Sys2Proof/Machine/Ops.lean ====
section
/-! DEFINITION. The named operations over memory, registers, pc, the latches and the output channel, and taking a
fault as one shared operation. -/

namespace Sys2Proof.Machine

/-! ### Memory (`memory_interface`: 20_memory.md) -/

/-- The byte listed for an address, or the reset value. -/
def Memory.lookup (m : Memory) (a : Nat) : Byte :=
  match m with
  | [] => Config.memReset
  | (k, v) :: rest => if k = a then v else Memory.lookup rest a

/-- Set the byte of an address, keeping the addresses rising and listing no reset value. -/
def Memory.store (m : Memory) (a : Nat) (v : Byte) : Memory :=
  match m with
  | [] => if v = Config.memReset then [] else [(a, v)]
  | (k, w) :: rest =>
    if a < k then
      if v = Config.memReset then (k, w) :: rest else (a, v) :: (k, w) :: rest
    else if a = k then
      if v = Config.memReset then rest else (a, v) :: rest
    else (k, w) :: Memory.store rest a v

/-- `MemRead(addr, 1)` (00_scope.md R7, 20_memory.md R33). Every 8-bit address exists (R44). -/
def Memory.read (m : Memory) (a : Byte) : Byte := Memory.lookup m a.toNat

/-- `MemWrite(addr, 1, v)`: that cell takes the value and no other changes (00_scope.md R7). -/
def Memory.write (m : Memory) (a v : Byte) : Memory := Memory.store m a.toNat v

/-- Bytes written at consecutive addresses modulo 256, the first at `a` (20_memory.md R31). -/
def Memory.writeBytes (m : Memory) (a : Byte) (bytes : List Byte) : Memory :=
  match bytes with
  | [] => m
  | b :: rest => Memory.writeBytes (Memory.write m a b) (a + 1) rest

/-- Addresses strictly rising from `lo`, all below 256, and no cell at the reset value. -/
def Memory.wfFrom (lo : Nat) (m : Memory) : Bool :=
  match m with
  | [] => true
  | (k, v) :: rest =>
    decide (lo ≤ k) && decide (k < Config.memCells) && decide (v ≠ Config.memReset) && Memory.wfFrom (k + 1) rest

/-- The canonical form: equal memories are equal lists. -/
def Memory.wf (m : Memory) : Bool := Memory.wfFrom 0 m

/-- The byte in a cell of the state's memory. -/
def readMem (s : State) (a : Byte) : Byte := Memory.read s.mem a

/-- Write a cell of the state's memory. -/
def writeMem (a v : Byte) (s : State) : State := { s with mem := Memory.write s.mem a v }

/-! ### General registers (`register_file_8x8`: 10_state.md R10 to R13) -/

/-- Read of `x[r]`. No register is hard-wired (10_state.md R11). -/
def readReg (s : State) (r : RegIdx) : Byte := s.regs[r]

/-- Write of `x[r]`. -/
def writeReg (r : RegIdx) (v : Byte) (s : State) : State := { s with regs := s.regs.set r v }

/-- The stack pointer `x[7]` (10_state.md R12). -/
def sp (s : State) : Byte := readReg s Config.spIndex

/-- `x[7] <- (x[7] - 1) mod 256`, the pre-decrement of PUSH and CALL, unchecked (44_stack.md R140; log 2). -/
def decSp (s : State) : State := writeReg Config.spIndex (sp s - 1) s

/-- `x[7] <- (x[7] + 1) mod 256`, the post-increment of POP and RET, unchecked (44_stack.md R140; log 2). -/
def incSp (s : State) : State := writeReg Config.spIndex (sp s + 1) s

/-- Write the byte at the address in the stack pointer (44_stack.md R140). -/
def storeAtSp (v : Byte) (s : State) : State := writeMem (sp s) v s

/-- Read the byte at the address in the stack pointer (44_stack.md R140). -/
def loadAtSp (s : State) : Byte := readMem s (sp s)

/-! ### pc (`pc_control`: 10_state.md R14 to R16) -/

/-- `pc <- target`. -/
def setPc (target : Byte) (s : State) : State := { s with pc := target }

/-- The address just past an instruction: `(pc + 1 + nops) mod 256`, nops being bits 7:6 of its opcode
(40_core_blocks_and_step.md R85; the wrap is log 1). -/
def nextPc (o : Opcode) (s : State) : Byte := s.pc + 1 + nopsField o.byte

/-- The generic pc advance (40_core_blocks_and_step.md R85). -/
def advance (o : Opcode) (s : State) : State := setPc (nextPc o s) s

/-! ### FL, RUN, OUT -/

/-- Write all three bits of FL at once (10_state.md R18). -/
def setFl (f : FlagBits) (s : State) : State := { s with fl := f }

/-- `RUN <- 0` (10_state.md R21). -/
def clearRun (s : State) : State := { s with run := false }

/-- `emit(v)`: append at the end of OUT (00_scope.md R7, 10_state.md R25). -/
def emit (v : Byte) (s : State) : State := { s with out := s.out ++ [v] }

/-! ### Taking a fault, and the macro-state -/

/-- Fault entry, `raise F(code, addr, opcode)`: FAULT takes the code, the address of the faulting instruction's opcode
(pc, which is kept) and its opcode byte; nothing else changes (60_exceptions.md R178, R176). There is no vector, no
mode and no saved register. There is no return beside it: no instruction clears FAULT and only reset leaves Faulted
(60_exceptions.md R179). UNVERIFIED, safe: the spec's decision D9 (log 9). -/
def raiseFault (c : FaultCode) (ir : Byte) (s : State) : State := { s with fault := some ⟨c, s.pc, ir⟩ }

/-- The three macro-states (10_state.md R23). -/
inductive MacroState where
  | running | halted | faulted
deriving DecidableEq, Repr

/-- The macro-state, a function of the two latches (10_state.md R23). RUN = 0 with a fault record is met by no run
(`State.inv`); it counts as Faulted, where no step is taken either way (log 12). -/
def State.macroState (s : State) : MacroState :=
  match s.fault, s.run with
  | some _, _ => .faulted
  | none, false => .halted
  | none, true => .running

/-- A step is taken only in Running: RUN = 1 and FAULT = none (40_core_blocks_and_step.md R80). -/
def State.isRunning (s : State) : Bool := s.run && s.fault.isNone

/-! ### Fetch (`fetch_unit`: 40_core_blocks_and_step.md R81, R82) -/

/-- The opcode byte at pc (R81). -/
def fetchOpcode (s : State) : Byte := readMem s s.pc

/-- `n` operand bytes, at `(pc + 1) mod 256` and `(pc + 2) mod 256` (R82). -/
def fetchOperands (n : Nat) (s : State) : List Byte :=
  match n with
  | 0 => []
  | 1 => [readMem s (s.pc + 1)]
  | _ => [readMem s (s.pc + 1), readMem s (s.pc + 2)]

/-- The bytes a step fetches: the opcode, then exactly the operand bytes it calls for, none for an illegal opcode
(20_memory.md R40; log 14). -/
def fetchBytes (s : State) : List Byte :=
  match Opcode.ofByte (fetchOpcode s) with
  | none => [fetchOpcode s]
  | some o => fetchOpcode s :: fetchOperands o.nops s

end Sys2Proof.Machine
end

