-- ==== Sys2Proof/Machine/Flags.lean ====
section
/-! DEFINITION. The flag register's bits and the one flag computation of the hardware, CMP's. -/

namespace Sys2Proof.Machine

/-- `FL.E`, bit 0 (10_state.md R17). -/
def flagE (f : FlagBits) : Bool := f.getLsbD 0

/-- `FL.G`, bit 1 (10_state.md R17). No instruction reads it (R18). -/
def flagG (f : FlagBits) : Bool := f.getLsbD 1

/-- `FL.L`, bit 2 (10_state.md R17). No instruction reads it (R18). -/
def flagL (f : FlagBits) : Bool := f.getLsbD 2

/-- What CMP writes to FL: all three bits, exactly one of them set, from the unsigned comparison of the first operand
with the second (43_alu.md R123). UNVERIFIED, unsafe for G and L: unsigned and this direction are the spec's decision
D7 (log 7). -/
def compareFlags (a b : Byte) : FlagBits :=
  if a.toNat = b.toNat then 0b001
  else if a.toNat > b.toNat then 0b010
  else 0b100

/-- The values FL can take: none of the bits, or exactly one (10_state.md R29, R18). -/
def legalFlags (f : FlagBits) : Bool := f == 0b000 || f == 0b001 || f == 0b010 || f == 0b100

end Sys2Proof.Machine
end

