-- ==== Sys2Proof/Machine/Operands.lean ====
section
/-! DEFINITION. The operand forms: a register index byte, one or two of them, checked before any state change. -/

namespace Sys2Proof.Machine

/-- The register an operand byte names: the whole byte is the index, never reduced modulo 8; none above 7
(30_encoding.md R55; log 8). -/
def regIndex (b : Byte) : Option RegIdx := if h : b.toNat < 8 then some ⟨b.toNat, h⟩ else none

/-- An instruction with one register operand: the effect `k` of the register it names, or OperandAddressError with
nothing else changed, whether or not the instruction would use the register (40_core_blocks_and_step.md R83,
60_exceptions.md R172). -/
def withReg (o : Opcode) (b : Byte) (s : State) (k : RegIdx → State) : Host.Outcome State Fault Refusal :=
  match regIndex b with
  | some r => .next (k r)
  | none => .next (raiseFault .operandAddress o.byte s)

/-- An instruction with two register operands: operand byte 1 is checked first, then operand byte 2
(60_exceptions.md R177). -/
def withRegs (o : Opcode) (b1 b2 : Byte) (s : State) (k : RegIdx → RegIdx → State) :
    Host.Outcome State Fault Refusal :=
  match regIndex b1 with
  | none => .next (raiseFault .operandAddress o.byte s)
  | some r1 =>
    match regIndex b2 with
    | none => .next (raiseFault .operandAddress o.byte s)
    | some r2 => .next (k r1 r2)

end Sys2Proof.Machine
end

