-- ==== Sys2Proof/Machine/Alu.lean ====
section
/-! DEFINITION. The ALU and the instructions that use it: ADD, MUL and CMP (43_alu.md). -/

namespace Sys2Proof.Machine

/-- The ADD operation: the exact sum, narrowed to its low 8 bits (43_alu.md R120). -/
def aluAdd (a b : Byte) : Byte := BitVec.ofNat 8 (a.toNat + b.toNat)

/-- The MUL operation: the exact product, narrowed to its low 8 bits (43_alu.md R120). -/
def aluMul (a b : Byte) : Byte := BitVec.ofNat 8 (a.toNat * b.toNat)

/-- ADD a, b; no flag is written (43_alu.md R121, R124). -/
def execAdd (a b : Byte) (s : State) : Host.Outcome State Fault Refusal :=
  withRegs .add a b s fun x y => advance .add (writeReg x (aluAdd (readReg s x) (readReg s y)) s)

/-- MUL a, b; no flag is written (43_alu.md R122, R124). -/
def execMul (a b : Byte) (s : State) : Host.Outcome State Fault Refusal :=
  withRegs .mul a b s fun x y => advance .mul (writeReg x (aluMul (readReg s x) (readReg s y)) s)

/-- CMP a, b; no register is written (43_alu.md R123). -/
def execCmp (a b : Byte) (s : State) : Host.Outcome State Fault Refusal :=
  withRegs .cmp a b s fun x y => advance .cmp (setFl (compareFlags (readReg s x) (readReg s y)) s)

end Sys2Proof.Machine
end

