-- ==== Sys2Proof/Machine/ControlTransfer.lean ====
section
/-! DEFINITION. The control transfer instructions: JMP, JEQ, JNE, CALL and RET (45_control_transfer.md). -/

namespace Sys2Proof.Machine

/-- JMP r (45_control_transfer.md R151). -/
def execJmp (r : Byte) (s : State) : Host.Outcome State Fault Refusal :=
  withReg .jmp r s fun x => setPc (readReg s x) s

/-- JEQ r: taken when E is set (45_control_transfer.md R152). -/
def execJeq (r : Byte) (s : State) : Host.Outcome State Fault Refusal :=
  withReg .jeq r s fun x => if flagE s.fl then setPc (readReg s x) s else advance .jeq s

/-- JNE r: taken when E is clear (45_control_transfer.md R153). -/
def execJne (r : Byte) (s : State) : Host.Outcome State Fault Refusal :=
  withReg .jne r s fun x => if flagE s.fl then advance .jne s else setPc (readReg s x) s

/-- CALL r: push the address after the CALL, then jump to `x[r]` as it is after the decrement
(45_control_transfer.md R154). UNVERIFIED, unsafe for r = 7: the spec's decision D14 (log 13). -/
def execCall (r : Byte) (s : State) : Host.Outcome State Fault Refusal :=
  withReg .call r s fun x =>
    let s1 := storeAtSp (nextPc .call s) (decSp s)
    setPc (readReg s1 x) s1

/-- RET: pop the byte at the stack pointer into pc (45_control_transfer.md R155). -/
def execRet (s : State) : Host.Outcome State Fault Refusal :=
  .next (incSp (setPc (loadAtSp s) s))

end Sys2Proof.Machine
end

