-- ==== Sys2Proof/Machine/DataMovement.lean ====
section
/-! DEFINITION. The data movement instruction: LDI (42_data_movement.md). -/

namespace Sys2Proof.Machine

/-- LDI r, imm8 (42_data_movement.md R110). -/
def execLdi (r imm8 : Byte) (s : State) : Host.Outcome State Fault Refusal :=
  withReg .ldi r s fun x => advance .ldi (writeReg x imm8 s)

end Sys2Proof.Machine
end

