-- ==== Sys2Proof/Machine/Stack.lean ====
section
/-! DEFINITION. The stack instructions: PUSH and POP (44_stack.md). -/

namespace Sys2Proof.Machine

/-- PUSH r: the stack pointer is decremented first, and both the address and `x[r]` are read after it, so that PUSH 7
stores the decremented pointer (44_stack.md R141). UNVERIFIED, unsafe for r = 7: the spec's decision D14 (log 13). -/
def execPush (r : Byte) (s : State) : Host.Outcome State Fault Refusal :=
  withReg .push r s fun x =>
    let s1 := decSp s
    advance .push (storeAtSp (readReg s1 x) s1)

/-- POP r: the register is written first and the stack pointer incremented second, so that POP 7 leaves the popped
byte plus 1 (44_stack.md R142). UNVERIFIED, unsafe for r = 7: the spec's decision D14 (log 13). -/
def execPop (r : Byte) (s : State) : Host.Outcome State Fault Refusal :=
  withReg .pop r s fun x => advance .pop (incSp (writeReg x (loadAtSp s) s))

end Sys2Proof.Machine
end

