-- ==== Sys2Proof/Machine/System.lean ====
section
/-! DEFINITION. The system and output instructions: HALT and PRN (41_system_and_output.md). -/

namespace Sys2Proof.Machine

/-- HALT (41_system_and_output.md R100). -/
def execHalt (s : State) : Host.Outcome State Fault Refusal :=
  .next (advance .halt (clearRun s))

/-- PRN r (41_system_and_output.md R101). -/
def execPrn (r : Byte) (s : State) : Host.Outcome State Fault Refusal :=
  withReg .prn r s fun x => advance .prn (emit (readReg s x) s)

end Sys2Proof.Machine
end

