-- ==== Sys2Proof/Machine/Step.lean ====
section
/-! DEFINITION. One step of the core, and the placing of an instruction where the next step fetches it. -/

namespace Sys2Proof.Machine

/-- One step (40_core_blocks_and_step.md R86). Outside Running nothing changes (R80; log 12). In Running the bytes at
pc are fetched before anything is written (R82) and decoded; an illegal opcode takes IllegalInstructionError (R81);
otherwise the instruction runs, with pc still at its opcode byte. -/
def step (s : State) : Host.Outcome State Fault Refusal :=
  if s.isRunning then
    match decode (fetchBytes s) with
    | .ok (i, _) => exec i s
    | .error _ => .next (raiseFault .illegalInstruction (fetchOpcode s) s)
  else .next s

/-- The state with the instruction of a word placed at pc, RUN set and FAULT empty, so that the very next step fetches
and runs it. It stands for the host's load of a program and is no move of the machine (log 19). -/
def State.withFetchWord (s : State) (nbits w : Nat) : State :=
  { s with mem := Memory.writeBytes s.mem s.pc (wordBytes nbits w), run := true, fault := none }

end Sys2Proof.Machine
end

