-- ==== Sys2Proof/Machine/Blocks.lean ====
section
/-! DEFINITION. The core a second time, as the seven blocks of 40_core_blocks_and_step.md R70 to R78 under the control
signals of R89. The blocks add no behaviour (R70): that this machine and `step` agree is a statement of the package.
Where the table and an instruction rule differ the instruction rule governs (R89), so `step` is the model and this is
its hardware form. A port whose output nothing uses needs no enable here: ra and wa are op1 and rb is op2 wherever the
table of R89 uses them. -/

namespace Sys2Proof.Machine

/-! ### The control signals -/

/-- `alu_op`: 0 ADD, 1 MUL, 2 CMP. The select 3 is never produced and has no constructor (R75; log 18). -/
inductive AluOp where
  | add | mul | cmp
deriving DecidableEq, Repr

/-- The source of the register file's write data `wd`. -/
inductive WriteData where
  | imm | aluY | memData
deriving DecidableEq, Repr

/-- The stack-pointer port: `sp_dec`, `sp_inc`, or neither; never both (R74). -/
inductive SpOp where
  | hold | dec | inc
deriving DecidableEq, Repr

/-- The core port's stack access. -/
inductive MemOp where
  | idle | read | writeQa | writePcPlus2
deriving DecidableEq, Repr

/-- `pc_sel`, with the branch condition of COND. -/
inductive PcSel where
  | seq | reg | condE | condNotE | mem
deriving DecidableEq, Repr

/-- The control signals of one opcode, a row of R89's table. -/
structure Control where
  regOp1 : Bool
  regOp2 : Bool
  wd : Option WriteData
  sp : SpOp
  mem : MemOp
  aluOp : Option AluOp
  flWe : Bool
  out : Bool
  halt : Bool
  pcSel : PcSel
deriving DecidableEq, Repr

/-- `instruction_decoder`: the control signals (40_core_blocks_and_step.md R89). -/
def controlSignals (o : Opcode) : Control :=
  match o with
  | .halt => ⟨false, false, none,          .hold, .idle,         none,      false, false, true,  .seq⟩
  | .ldi  => ⟨true,  false, some .imm,     .hold, .idle,         none,      false, false, false, .seq⟩
  | .prn  => ⟨true,  false, none,          .hold, .idle,         none,      false, true,  false, .seq⟩
  | .mul  => ⟨true,  true,  some .aluY,    .hold, .idle,         some .mul, false, false, false, .seq⟩
  | .add  => ⟨true,  true,  some .aluY,    .hold, .idle,         some .add, false, false, false, .seq⟩
  | .push => ⟨true,  false, none,          .dec,  .writeQa,      none,      false, false, false, .seq⟩
  | .pop  => ⟨true,  false, some .memData, .inc,  .read,         none,      false, false, false, .seq⟩
  | .call => ⟨true,  false, none,          .dec,  .writePcPlus2, none,      false, false, false, .reg⟩
  | .ret  => ⟨false, false, none,          .inc,  .read,         none,      false, false, false, .mem⟩
  | .cmp  => ⟨true,  true,  none,          .hold, .idle,         some .cmp, true,  false, false, .seq⟩
  | .jmp  => ⟨true,  false, none,          .hold, .idle,         none,      false, false, false, .reg⟩
  | .jne  => ⟨true,  false, none,          .hold, .idle,         none,      false, false, false, .condNotE⟩
  | .jeq  => ⟨true,  false, none,          .hold, .idle,         none,      false, false, false, .condE⟩

/-- `instruction_decoder`: `operand_fault`, a register operand byte above 7 (R73). -/
def operandFault (c : Control) (op1 op2 : Byte) : Bool :=
  (c.regOp1 && decide (7 < op1.toNat)) || (c.regOp2 && decide (7 < op2.toNat))

/-! ### The blocks -/

/-- A register-file address port: 3 bits (R74). -/
def regPort (b : Byte) : RegIdx := ⟨b.toNat % 8, Nat.mod_lt _ (by decide)⟩

/-- `register_file_8x8`: the cells as `sp_dec` leaves them, which the read ports and `sp` see (R74). -/
def regFileDec (op : SpOp) (x : Vector Byte 8) : Vector Byte 8 :=
  match op with
  | .dec => x.set 7 (x[7] - 1)
  | _ => x

/-- `register_file_8x8`: the write through port W first, then `sp_inc` (R74). -/
def regFileWrite (op : SpOp) (wa : RegIdx) (wd : Option Byte) (x : Vector Byte 8) : Vector Byte 8 :=
  let written := match wd with
    | some v => x.set wa v
    | none => x
  match op with
  | .inc => written.set 7 (written[7] + 1)
  | _ => written

/-- `alu_8bit`: the output `y`; unused for CMP (R75). -/
def aluY (op : AluOp) (a b : Byte) : Option Byte :=
  match op with
  | .add => some (aluAdd a b)
  | .mul => some (aluMul a b)
  | .cmp => none

/-- `alu_8bit`: the output `cmp`, in the order L, G, E (R75). -/
def aluCmp (op : AluOp) (a b : Byte) : Option FlagBits :=
  match op with
  | .cmp => some (compareFlags a b)
  | _ => none

/-- `pc_control`: the next pc (R76), with `take` from `flag_register` (R77). -/
def pcControl (sel : PcSel) (nops : Byte) (qa memData : Byte) (fl : FlagBits) (pc : Byte) : Byte :=
  match sel with
  | .seq => pc + 1 + nops
  | .reg => qa
  | .condE => if flagE fl then qa else pc + 2
  | .condNotE => if flagE fl then pc + 2 else qa
  | .mem => memData

/-- `flag_register`: FL after the update (R77). -/
def flagRegister (we : Bool) (cmp : Option FlagBits) (fl : FlagBits) : FlagBits :=
  match we, cmp with
  | true, some f => f
  | _, _ => fl

/-- `memory_interface`: the cells after the core port's stack access (R78). -/
def memoryInterface (op : MemOp) (addr qa pcPlus2 : Byte) (m : Memory) : Memory :=
  match op with
  | .writeQa => Memory.write m addr qa
  | .writePcPlus2 => Memory.write m addr pcPlus2
  | _ => m

/-- The one update on `execute` (R72, R79): every block takes its new state together. -/
def executeBlocks (o : Opcode) (op1 op2 : Byte) (s : State) : State :=
  let c := controlSignals o
  let x := regFileDec c.sp s.regs
  let qa := x[regPort op1]
  let qb := x[regPort op2]
  let memData := Memory.read s.mem x[7]
  let wd := match c.wd with
    | some .imm => some op2
    | some .memData => some memData
    | some .aluY => c.aluOp.bind fun op => aluY op qa qb
    | none => none
  { mem := memoryInterface c.mem x[7] qa (s.pc + 2) s.mem
    regs := regFileWrite c.sp (regPort op1) wd x
    pc := pcControl c.pcSel (nopsField o.byte) qa memData s.fl s.pc
    fl := flagRegister c.flWe (c.aluOp.bind fun op => aluCmp op qa qb) s.fl
    run := if c.halt then false else s.run
    fault := s.fault
    out := if c.out then s.out ++ [qa] else s.out }

/-- `fetch_unit`: one requested step (R72). The latches IR, OP1, OP2 are not architectural (10_state.md R26): OP1 and
OP2 come in with whatever they hold and are loaded only as far as `nops` says. -/
def stepBlocks (op1Latch op2Latch : Byte) (s : State) : State :=
  if s.run && s.fault.isNone then
    let ir := Memory.read s.mem s.pc
    match Opcode.ofByte ir with
    | none => { s with fault := some ⟨.illegalInstruction, s.pc, ir⟩ }
    | some o =>
      let n := (nopsField ir).toNat
      let op1 := if 1 ≤ n then Memory.read s.mem (s.pc + 1) else op1Latch
      let op2 := if n = 2 then Memory.read s.mem (s.pc + 2) else op2Latch
      if operandFault (controlSignals o) op1 op2 then { s with fault := some ⟨.operandAddress, s.pc, ir⟩ }
      else executeBlocks o op1 op2 s
  else s

end Sys2Proof.Machine
end

