-- ==== Sys2Proof/Machine/HostPort.lean ====
section
/-! DEFINITION. The host's moves on the core: reset, load, the memory accessors, the step request and the run request
(40_core_blocks_and_step.md R90, 20_memory.md R41 to R43, 70_reset_and_hazards.md R200). -/

namespace Sys2Proof.Machine

/-- `rst`: every piece of state takes its reset value, whatever the state was (70_reset_and_hazards.md R200). -/
def hostReset (_ : State) : State := State.reset

/-- `host_read(addr)`: the byte; nothing changes (20_memory.md R41). -/
def hostRead (a : Byte) (s : State) : Byte := readMem s a

/-- `host_write(addr, v)`, `v` truncated to 8 bits (20_memory.md R41). -/
def hostWrite (a : Byte) (v : Nat) (s : State) : State := writeMem a (BitVec.ofNat 8 v) s

/-- `load(bytes)`: the image at the addresses from 0 on, memory only; an image above 256 bytes is refused whole with
CapacityError before anything is written (20_memory.md R42, R43; log 11). -/
def hostLoad (image : List Byte) (s : State) : Host.Outcome State Fault Refusal :=
  if image.length ≤ Config.maxImage then
    .next { s with mem := Memory.writeBytes s.mem Config.loadBase image }
  else .fault .capacityError

/-- `run()` under the host's budget of steps: step while Running (40_core_blocks_and_step.md R87; log 22). -/
def hostRun (budget : Nat) (s : State) : Host.Outcome State Fault Refusal :=
  match budget with
  | 0 => .next s
  | k + 1 =>
    if s.isRunning then
      match step s with
      | .next t => hostRun k t
      | .fault r => .fault r
      | .refused r => .refused r
    else .next s

/-- A move of the host that can change the state (40_core_blocks_and_step.md R90). A run request is a sequence of step
requests; `host_read` and the observation ports change nothing. Each move happens between steps (R41; log 11). -/
inductive HostMove where
  | reset
  | load (image : List Byte)
  | write (addr : Byte) (v : Nat)
  | stepRequest
deriving DecidableEq, Repr

/-- What a move does. -/
def HostMove.apply (m : HostMove) (s : State) : Host.Outcome State Fault Refusal :=
  match m with
  | .reset => .next (hostReset s)
  | .load image => hostLoad image s
  | .write a v => .next (hostWrite a v s)
  | .stepRequest => step s

end Sys2Proof.Machine
end

