-- ==== Sys2Proof/Machine/Ports.lean ====
section
/-! DEFINITION. What the host observes: the error codes, the output ports that show the state, the value a step emits,
how a load and a run have ended, and the text of the output channel. All of it changes nothing. -/

namespace Sys2Proof.Machine

/-- The number of a fault code on the port `fault_code`: 1 or 2; 0 stands for no fault (60_exceptions.md R170). -/
def FaultCode.number (c : FaultCode) : BitVec 2 :=
  match c with
  | .illegalInstruction => 1
  | .operandAddress => 2

/-- The code of CapacityError, 3: of the host's load only, so it stands neither in FAULT nor on `fault_code`
(60_exceptions.md R170, the spec's decision D10; log 9). -/
def Fault.number (f : Fault) : BitVec 2 :=
  match f with
  | .capacityError => 3

/-- `load_err` after a load with this outcome: set when the image was refused (40_core_blocks_and_step.md R71,
60_exceptions.md R170; for how many clocks is not modelled, log 16). -/
def loadErr (o : Host.Outcome State Fault Refusal) : Bool :=
  match o with
  | .next _ => false
  | .fault .capacityError => true
  | .refused _ => false

/-- The output ports of the core that show its state between steps (40_core_blocks_and_step.md R71). -/
structure Outputs where
  running : Bool
  faulted : Bool
  faultCode : BitVec 2
  /-- `fault_addr`, FAULT.addr: none while FAULT is none, where the spec gives the port no value (log 17). -/
  faultAddr : Option Byte
  /-- `fault_opcode`, FAULT.opcode: none while FAULT is none (log 17). -/
  faultOpcode : Option Byte
  dbgPc : Byte
  dbgFl : FlagBits
  dbgX : Vector Byte 8
deriving DecidableEq, Repr

/-- The ports' values in a state (40_core_blocks_and_step.md R71). -/
def observe (s : State) : Outputs where
  running := s.run
  faulted := s.fault.isSome
  faultCode := match s.fault with
    | none => 0
    | some f => f.code.number
  faultAddr := s.fault.map (·.addr)
  faultOpcode := s.fault.map (·.opcode)
  dbgPc := s.pc
  dbgFl := s.fl
  dbgX := s.regs

/-- `out_valid` and `out_data` over a step from `before` to `after`: the value appended to OUT, if any
(40_core_blocks_and_step.md R71; the clock it stands for is not modelled, log 16). -/
def emitted (before after : State) : Option Byte := (after.out.drop before.out.length).head?

/-- How a run has ended, or that it was cut off by the host's budget (40_core_blocks_and_step.md R91). -/
inductive RunEnd where
  /-- (a) A HALT executed: the only successful end. -/
  | halted
  /-- (b) A step raised a fault, with its record. -/
  | faulted (record : FaultRecord)
  /-- (c) Neither yet: the core is still Running. -/
  | running
deriving DecidableEq, Repr

/-- The end a state stands for (40_core_blocks_and_step.md R91, 10_state.md R23). -/
def State.runEnd (s : State) : RunEnd :=
  match s.fault, s.run with
  | some f, _ => .faulted f
  | none, false => .halted
  | none, true => .running

/-- The decimal digit of a number below 10. -/
def digitChar (n : Nat) : Char := Char.ofNat (48 + n)

/-- A value's decimal numeral, no sign, no leading zeros (41_system_and_output.md R102). -/
def decimal (v : Byte) : List Char :=
  let n := v.toNat
  if n < 10 then [digitChar n]
  else if n < 100 then [digitChar (n / 10), digitChar (n % 10)]
  else [digitChar (n / 100), digitChar (n / 10 % 10), digitChar (n % 10)]

/-- The text of the output channel, one numeral and one LF per value. UNVERIFIED, unsafe for claims over the text: LF
is the spec's decision D16 (41_system_and_output.md R102; log 15). -/
def renderOut (out : List Byte) : List Char := out.flatMap fun v => decimal v ++ ['\n']

end Sys2Proof.Machine
end

