-- ==== Sys2Proof/Safety.lean ====
section
/-! DEFINITION. What a legal state and a safe run are, and the tables of the spec that claims speak of: the registers
an instruction reads and writes, the cell it stores to, and how it moves the stack pointer. -/

namespace Sys2Proof.Machine

/-! ### The invariant -/

/-- A fault record is one the hardware can have written: RUN is still 1 (10_state.md R23), its address is pc, which a
fault keeps (60_exceptions.md R178), and its opcode byte is illegal for code 1 and that of an instruction with a
register operand for code 2 (60_exceptions.md R170). -/
def faultLegal (s : State) : Bool :=
  match s.fault with
  | none => true
  | some f =>
    s.run && f.addr == s.pc &&
      match f.code, Opcode.ofByte f.opcode with
      | .illegalInstruction, none => true
      | .operandAddress, some o => decide (1 ≤ o.nops)
      | _, _ => false

/-- The invariant of the machine: the memory is in its canonical form, at most one flag bit is set (10_state.md R18,
R29), and the fault latch is legal. -/
def State.inv (s : State) : Bool := Memory.wf s.mem && legalFlags s.fl && faultLegal s

/-- The states that reset and any sequence of the host's moves can reach (40_core_blocks_and_step.md R90). -/
inductive Reachable : State → Prop where
  | reset : Reachable State.reset
  | move {s t : State} (m : HostMove) : Reachable s → m.apply s = .next t → Reachable t

/-! ### The register table (10_state.md R11) -/

/-- The registers an instruction writes. -/
def writtenRegs (i : Instr) : List Nat :=
  match i with
  | .halt => []
  | .ldi r _ => [r.toNat]
  | .prn _ => []
  | .mul a _ => [a.toNat]
  | .add a _ => [a.toNat]
  | .push _ => [7]
  | .pop r => [r.toNat, 7]
  | .call _ => [7]
  | .ret => [7]
  | .cmp _ _ => []
  | .jmp _ => []
  | .jne _ => []
  | .jeq _ => []

/-- The registers an instruction reads; JEQ and JNE read theirs only when taken, which depends on FL. -/
def readRegs (i : Instr) (fl : FlagBits) : List Nat :=
  match i with
  | .halt => []
  | .ldi _ _ => []
  | .prn r => [r.toNat]
  | .mul a b => [a.toNat, b.toNat]
  | .add a b => [a.toNat, b.toNat]
  | .push r => [7, r.toNat]
  | .pop _ => [7]
  | .call r => [7, r.toNat]
  | .ret => [7]
  | .cmp a b => [a.toNat, b.toNat]
  | .jmp r => [r.toNat]
  | .jne r => if flagE fl then [] else [r.toNat]
  | .jeq r => if flagE fl then [r.toNat] else []

/-! ### The one cell an instruction stores to (20_memory.md R30, 44_stack.md R140) -/

/-- The address PUSH and CALL store to: the stack pointer after the decrement. No other instruction stores, and one
with an illegal register operand stores nothing. -/
def storeAddr (i : Instr) (s : State) : Option Byte :=
  match i with
  | .push _ => if i.wellFormed then some (sp (decSp s)) else none
  | .call _ => if i.wellFormed then some (sp (decSp s)) else none
  | _ => none

/-! ### The stack discipline (95_test_vectors.md E8, 90_conflicts.md C9) -/

/-- The instruction names register 7 as its destination, and so writes the stack pointer as an ordinary register. -/
def writesSpExplicitly (i : Instr) : Bool :=
  match i with
  | .ldi r _ => r == 7
  | .mul a _ => a == 7
  | .add a _ => a == 7
  | .pop r => r == 7
  | _ => false

/-- PUSH and CALL push one byte. -/
def pushCount (i : Instr) : Nat :=
  match i with
  | .push _ => 1
  | .call _ => 1
  | _ => 0

/-- POP and RET pop one byte. -/
def popCount (i : Instr) : Nat :=
  match i with
  | .pop _ => 1
  | .ret => 1
  | _ => 0

/-- A sequence of instructions executed one after the other. -/
def execAll (is : List Instr) (s : State) : Host.Outcome State Fault Refusal :=
  match is with
  | [] => .next s
  | i :: rest =>
    match exec i s with
    | .next t => execAll rest t
    | .fault r => .fault r
    | .refused r => .refused r

end Sys2Proof.Machine
end

