-- ==== Sys2Proof/Certificates/Slice0/Obligations.lean ====
section
/-! DEFINITION. The statements for the provers, each a rule of spec/ or resting on one. Where a clause is a decision the
spec marks as its own (92_eei_decisions.md), the docstring names the decision and the log entry. -/

open Sys2Proof Sys2Proof.Machine

/-! ### Reset and the invariant -/

/-- The state after reset, piece by piece (10_state.md R28). pc and x[7] are the source's values; x[0] to x[6], FL, the
memory and FAULT are the spec's decisions D3, D4, D5, D9 (log 3, 4, 5, 9). -/
def Obligations.ResetGivesTheTabledValues : Prop :=
  State.reset.pc = 0x00 ∧
  (∀ r : RegIdx, State.reset.regs[r] = if r = 7 then 0xF4 else 0x00) ∧
  State.reset.fl = 0b000 ∧ State.reset.run = true ∧ State.reset.fault = none ∧
  (∀ a : Byte, readMem State.reset a = 0x00) ∧ State.reset.out = []

/-- The state after reset satisfies the invariant. -/
def Obligations.ResetSatisfiesInvariant : Prop := State.reset.inv = true

/-- From every state with the invariant, a step gives a state with it: the memory stays canonical, at most one flag bit
is set (10_state.md R18, R29), and the fault latch is one the hardware can have written (R23, 60_exceptions.md R178). -/
def Obligations.StepKeepsInvariant : Prop :=
  ∀ s t : State, s.inv = true → step s = .next t → t.inv = true

/-- Every state that reset and any sequence of host moves can reach has the invariant (40_core_blocks_and_step.md R90).
Which moves the host has rests on the spec's decisions D12 and D21 (log 11, 25). -/
def Obligations.ReachableStatesSatisfyInvariant : Prop :=
  ∀ s : State, Reachable s → s.inv = true

/-- A core run with no image loaded stops at once with FAULT = (1, 0x00, 0x00) (70_reset_and_hazards.md R203, which the
spec derives from decision D5; log 5). -/
def Obligations.FirstStepWithoutImageFaults : Prop :=
  step State.reset = .next { State.reset with fault := some ⟨.illegalInstruction, 0x00, 0x00⟩ }

/-! ### Encoding -/

/-- A few words written out from 30_encoding.md R57 and R51 decode to the instructions they stand for. -/
def Obligations.SpecWordsDecode : Prop :=
  decode [0b00000001] = .ok (.halt, []) ∧
  decode [0b10000010, 0x03, 0xFF] = .ok (.ldi 3 0xFF, []) ∧
  decode [0b10100000, 0x00, 0x07] = .ok (.add 0 7, []) ∧
  decode [0b01000101, 0x01] = .ok (.push 1, []) ∧
  decode [0b01010101, 0x02] = .ok (.jeq 2, [])

/-- The complete opcode map, matched on the whole opcode byte, with the operand bytes each opcode takes: 13 legal bytes,
and each of the other 243 refused whatever follows it (30_encoding.md R57, R58). -/
def Obligations.OpcodeMapIsComplete : Prop :=
  (∀ rest, decode (0x01 :: rest) = .ok (.halt, rest)) ∧
  (∀ r imm8 rest, decode (0x82 :: r :: imm8 :: rest) = .ok (.ldi r imm8, rest)) ∧
  (∀ r rest, decode (0x47 :: r :: rest) = .ok (.prn r, rest)) ∧
  (∀ a b rest, decode (0xA2 :: a :: b :: rest) = .ok (.mul a b, rest)) ∧
  (∀ a b rest, decode (0xA0 :: a :: b :: rest) = .ok (.add a b, rest)) ∧
  (∀ r rest, decode (0x45 :: r :: rest) = .ok (.push r, rest)) ∧
  (∀ r rest, decode (0x46 :: r :: rest) = .ok (.pop r, rest)) ∧
  (∀ r rest, decode (0x50 :: r :: rest) = .ok (.call r, rest)) ∧
  (∀ rest, decode (0x11 :: rest) = .ok (.ret, rest)) ∧
  (∀ a b rest, decode (0xA7 :: a :: b :: rest) = .ok (.cmp a b, rest)) ∧
  (∀ r rest, decode (0x54 :: r :: rest) = .ok (.jmp r, rest)) ∧
  (∀ r rest, decode (0x56 :: r :: rest) = .ok (.jne r, rest)) ∧
  (∀ r rest, decode (0x55 :: r :: rest) = .ok (.jeq r, rest)) ∧
  (∀ (ir : Byte) (rest : List Byte),
    ir ∉ ([0x01, 0x11, 0x45, 0x46, 0x47, 0x50, 0x54, 0x55, 0x56, 0x82, 0xA0, 0xA2, 0xA7] : List Byte) →
    decode (ir :: rest) = .error (.illegalOpcode ir)) ∧
  ((List.range 256).countP fun n => (Opcode.ofByte (BitVec.ofNat 8 n)).isNone) = 243

/-- Decoding the bytes of an instruction gives it back, with every operand at every value the encoding holds, and leaves
the bytes after it; and so does decoding its bytes as one number, first byte least significant (30_encoding.md R50, R51,
R55, R56; 20_memory.md R31). -/
def Obligations.DecodeOfEncodeGivesInstructionBack : Prop :=
  ∀ (i : Instr) (rest : List Byte), decode (encode i ++ rest) = .ok (i, rest) ∧
    decodeTableWord (8 * (encode i).length) ((encode i).foldr (fun b n => b.toNat + 256 * n) 0) = some i

/-- Bytes that decode are exactly the encoding of the instruction they give: each byte string has one meaning. -/
def Obligations.DecodedBytesAreTheEncoding : Prop :=
  ∀ (bytes : List Byte) (i : Instr) (rest : List Byte), decode bytes = .ok (i, rest) → bytes = encode i ++ rest

/-- Bit 4 of the opcode byte is set exactly for CALL, RET, JMP, JEQ and JNE; for every other instruction with legal
operands pc advances by 1 plus the operand count, bits 7:6 (30_encoding.md R54, 40_core_blocks_and_step.md R85). -/
def Obligations.PcAdvancesUnlessBitFourIsSet : Prop :=
  ∀ (i : Instr) (ir : Byte) (ops : List Byte), encode i = ir :: ops →
    (ir.getLsbD 4 = true ↔
      (∃ r, i = .call r) ∨ i = .ret ∨ (∃ r, i = .jmp r) ∨ (∃ r, i = .jeq r) ∨ ∃ r, i = .jne r) ∧
    (i.wellFormed = true → ir.getLsbD 4 = false →
      ∀ s t : State, exec i s = .next t → t.pc = s.pc + 1 + (ir >>> 6))

/-! ### The step -/

/-- In Running, when the bytes at pc decode to an instruction, the step is that instruction's execution in that very
state: nothing is added around it, and pc is still at the opcode byte (40_core_blocks_and_step.md R81 to R84, R86). -/
def Obligations.StepRunsTheDecodedInstruction : Prop :=
  ∀ (s : State) (i : Instr) (rest : List Byte), s.run = true → s.fault = none →
    decode [readMem s s.pc, readMem s (s.pc + 1), readMem s (s.pc + 2)] = .ok (i, rest) →
    step s = exec i s

/-- An opcode byte outside the 13 takes IllegalInstructionError: FAULT records the code, pc and the byte, and nothing
else changes; the bytes after it are not looked at (40_core_blocks_and_step.md R81, 60_exceptions.md R171). That
pc, RUN and OUT stay and what FAULT records is the spec's decision D9, the code 1 its decision D10 (log 9). -/
def Obligations.IllegalOpcodeTakesTheFault : Prop :=
  ∀ s : State, s.run = true → s.fault = none →
    readMem s s.pc ∉ ([0x01, 0x11, 0x45, 0x46, 0x47, 0x50, 0x54, 0x55, 0x56, 0x82, 0xA0, 0xA2, 0xA7] : List Byte) →
    step s = .next { s with fault := some ⟨.illegalInstruction, s.pc, readMem s s.pc⟩ }

/-- The macro-states are functions of the two latches; a step is taken only in Running; no move but reset leaves Halted
or Faulted, and reset leaves them for Running; in a reachable Faulted state RUN is 1 (10_state.md R23). The macro-state
Faulted is the spec's addition (D9; log 9); that a step request outside Running changes nothing is its decision D13; and
that RUN = 0 with a record counts as Faulted is the model's reading, marked DEDUCED (log 12). -/
def Obligations.HaltedAndFaultedAreTerminal : Prop :=
  (∀ s : State, (s.macroState = .running ↔ s.run = true ∧ s.fault = none) ∧
    (s.macroState = .halted ↔ s.run = false ∧ s.fault = none) ∧
    (s.macroState = .faulted ↔ s.fault ≠ none)) ∧
  (∀ s : State, s.macroState ≠ .running → step s = .next s) ∧
  (∀ (m : HostMove) (s t : State), s.macroState ≠ .running → m.apply s = .next t →
    if m = .reset then t.macroState = .running else t.macroState = s.macroState) ∧
  (∀ s : State, Reachable s → s.macroState = .faulted → s.run = true)

/-- The step is total: from every state it answers a next state, never a fault or a refusal of the model
(40_core_blocks_and_step.md R86). -/
def Obligations.StepAlwaysAnswersNext : Prop :=
  ∀ s : State, ∃ t : State, step s = .next t

/-- Faults are precise: a step that ends with a fault record has changed nothing but the latch, which holds the address
and the opcode byte of the instruction (60_exceptions.md R178, R176, the spec's decision D9; log 9). -/
def Obligations.FaultingStepChangesOnlyTheLatch : Prop :=
  ∀ s t : State, s.fault = none → step s = .next t → t.fault ≠ none →
    ∃ c : FaultCode, t = { s with fault := some ⟨c, s.pc, readMem s s.pc⟩ }

/-- A register operand above 7 takes OperandAddressError before anything changes, whichever operand it is, used or not,
and with legal operands no instruction faults (40_core_blocks_and_step.md R83, 60_exceptions.md R172, R177: the spec's
decisions D8, D11; log 8, 10). -/
def Obligations.IllegalRegisterOperandTakesTheFault : Prop :=
  ∀ (i : Instr) (s : State),
    (i.wellFormed = false →
      exec i s = .next { s with fault := some ⟨.operandAddress, s.pc, (encode i).headD 0⟩ }) ∧
    (i.wellFormed = true → ∃ t : State, exec i s = .next t ∧ t.fault = s.fault)

/-- A PUSH whose store lands on its own opcode or operand byte still runs as fetched, and the cell then holds the pushed
byte for later fetches (40_core_blocks_and_step.md R82, 20_memory.md R39: the spec's decision D15; log 14). -/
def Obligations.PushOverItsOwnBytesStillRuns : Prop :=
  ∀ (s : State) (r : Byte) (hr : r.toNat < 8), s.run = true → s.fault = none → Memory.wf s.mem = true →
    readMem s s.pc = 0x45 → readMem s (s.pc + 1) = r → r ≠ 7 →
    s.regs[7] - 1 = s.pc ∨ s.regs[7] - 1 = s.pc + 1 →
    ∃ t : State, step s = .next t ∧ t.pc = s.pc + 2 ∧ t.regs[7] = s.regs[7] - 1 ∧
      fetchOpcode { t with pc := s.regs[7] - 1 } = s.regs[r.toNat]

/-! ### System and output -/

/-- HALT clears RUN and advances pc by 1 and changes nothing else; the core is then Halted and takes no step; and no
other instruction clears RUN (41_system_and_output.md R100). -/
def Obligations.HaltStopsTheCore : Prop :=
  encode .halt = [0x01] ∧
  (∀ s : State, exec .halt s = .next { s with run := false, pc := s.pc + 1 }) ∧
  (∀ s t : State, exec .halt s = .next t → s.fault = none → t.macroState = .halted ∧ step t = .next t) ∧
  (∀ (i : Instr) (s t : State), exec i s = .next t → i ≠ .halt → t.run = s.run)

/-- PRN appends x[r] to OUT, shows it on the output port, advances pc by 2 and changes nothing else; r above 7 faults
before anything is emitted (41_system_and_output.md R101). That
the operand is checked is in the rule's own text; R83 rests it on the spec's decision D8 (log 8). -/
def Obligations.PrnEmitsRegister : Prop :=
  ∀ (r : Byte) (s : State), encode (.prn r) = [0x47, r] ∧
    (∀ hr : r.toNat < 8, ∃ t : State, exec (.prn r) s = .next t ∧
      t = { s with out := s.out ++ [s.regs[r.toNat]], pc := s.pc + 2 } ∧ emitted s t = some s.regs[r.toNat]) ∧
    (8 ≤ r.toNat → exec (.prn r) s = .next { s with fault := some ⟨.operandAddress, s.pc, 0x47⟩ })

/-- OUT is empty at reset; PRN with a legal operand appends one value, x[r]; no other instruction changes OUT, nor does a
PRN with an operand above 7, which faults (D8; log 8); no host move but reset removes or changes an element; and no
instruction reads it back (10_state.md R25). -/
def Obligations.OutputIsAppendOnly : Prop :=
  State.reset.out = [] ∧
  (∀ (r : Byte) (hr : r.toNat < 8) (s : State),
    ∃ t : State, exec (.prn r) s = .next t ∧ t.out = s.out ++ [s.regs[r.toNat]]) ∧
  (∀ (i : Instr) (s t : State), exec i s = .next t → (∀ r : Byte, r.toNat < 8 → i ≠ .prn r) → t.out = s.out) ∧
  (∀ (i : Instr) (s : State) (o : List Byte), ∃ (t : State) (new : List Byte),
    exec i s = .next t ∧ t.out = s.out ++ new ∧ exec i { s with out := o } = .next { t with out := o ++ new }) ∧
  (∀ (m : HostMove) (s t : State), m.apply s = .next t → m ≠ .reset → s.out <+: t.out)

/-! ### Data movement -/

/-- LDI writes the immediate to x[r], advances pc by 3 and changes nothing else; r above 7 faults, the immediate is
never checked (42_data_movement.md R110). That
the operand is checked is in the rule's own text; R83 rests it on the spec's decision D8 (log 8). -/
def Obligations.LdiLoadsImmediate : Prop :=
  ∀ (r imm8 : Byte) (s : State), encode (.ldi r imm8) = [0x82, r, imm8] ∧
    (∀ hr : r.toNat < 8, exec (.ldi r imm8) s = .next { s with regs := s.regs.set r.toNat imm8, pc := s.pc + 3 }) ∧
    (8 ≤ r.toNat → exec (.ldi r imm8) s = .next { s with fault := some ⟨.operandAddress, s.pc, 0x82⟩ })

/-! ### ALU -/

/-- ADD writes the sum modulo 256 to x[a], advances pc by 3 and changes nothing else, no flag among it; either operand
above 7 faults (43_alu.md R121). That
the operand is checked is in the rule's own text; R83 rests it on the spec's decision D8 (log 8). -/
def Obligations.AddWrapsModulo256 : Prop :=
  ∀ (a b : Byte) (s : State), encode (.add a b) = [0xA0, a, b] ∧
    (∀ (ha : a.toNat < 8) (hb : b.toNat < 8), ∃ v : Byte,
      v.toNat = (s.regs[a.toNat].toNat + s.regs[b.toNat].toNat) % 256 ∧
      exec (.add a b) s = .next { s with regs := s.regs.set a.toNat v, pc := s.pc + 3 }) ∧
    (8 ≤ a.toNat ∨ 8 ≤ b.toNat →
      exec (.add a b) s = .next { s with fault := some ⟨.operandAddress, s.pc, 0xA0⟩ })

/-- MUL writes the product modulo 256 to x[a], advances pc by 3 and changes nothing else, no flag among it; either
operand above 7 faults (43_alu.md R122). That
the operand is checked is in the rule's own text; R83 rests it on the spec's decision D8 (log 8). -/
def Obligations.MulWrapsModulo256 : Prop :=
  ∀ (a b : Byte) (s : State), encode (.mul a b) = [0xA2, a, b] ∧
    (∀ (ha : a.toNat < 8) (hb : b.toNat < 8), ∃ v : Byte,
      v.toNat = (s.regs[a.toNat].toNat * s.regs[b.toNat].toNat) % 256 ∧
      exec (.mul a b) s = .next { s with regs := s.regs.set a.toNat v, pc := s.pc + 3 }) ∧
    (8 ≤ a.toNat ∨ 8 ≤ b.toNat →
      exec (.mul a b) s = .next { s with fault := some ⟨.operandAddress, s.pc, 0xA2⟩ })

/-- CMP writes exactly one flag bit, E, G or L, clears the other two, advances pc by 3 and changes nothing else; either
operand above 7 faults (43_alu.md R123). That the comparison is unsigned and that G means x[a] > x[b] is the spec's
decision D7 (log 7); that an operand above 7 faults is its decision D8 (log 8). -/
def Obligations.CmpSetsOneFlag : Prop :=
  ∀ (a b : Byte) (s : State), encode (.cmp a b) = [0xA7, a, b] ∧
    (∀ (ha : a.toNat < 8) (hb : b.toNat < 8), ∃ f : FlagBits,
      exec (.cmp a b) s = .next { s with fl := f, pc := s.pc + 3 } ∧
      (f.getLsbD 0 = true ↔ s.regs[a.toNat] = s.regs[b.toNat]) ∧
      (f.getLsbD 1 = true ↔ s.regs[a.toNat].toNat > s.regs[b.toNat].toNat) ∧
      (f.getLsbD 2 = true ↔ s.regs[a.toNat].toNat < s.regs[b.toNat].toNat)) ∧
    (8 ≤ a.toNat ∨ 8 ≤ b.toNat →
      exec (.cmp a b) s = .next { s with fault := some ⟨.operandAddress, s.pc, 0xA7⟩ })

/-- Only CMP writes FL; and no instruction but JEQ and JNE reads it, and those read only E: with another FL that agrees
on E where E is read, everything else comes out the same (10_state.md R18). -/
def Obligations.FlagsWrittenByCmpReadByJumps : Prop :=
  (∀ (i : Instr) (s t : State), exec i s = .next t → (∀ a b, i ≠ .cmp a b) → t.fl = s.fl) ∧
  (∀ (i : Instr) (s : State) (f : FlagBits),
    ((∃ r, i = .jeq r) ∨ (∃ r, i = .jne r) → f.getLsbD 0 = s.fl.getLsbD 0) →
    ∃ t : State, exec i s = .next t ∧
      exec i { s with fl := f } =
        .next { t with fl := if i.opcode = .cmp ∧ i.wellFormed = true then t.fl else f })

/-! ### Stack -/

/-- PUSH decrements x[7], stores x[r] at the new x[7], advances pc by 2 and changes nothing else; r above 7 faults
(44_stack.md R141). That PUSH 7 stores the decremented pointer is the spec's decision D14 (log 13), that the pointer
wraps its decision D2 (log 2), that an operand above 7 faults its decision D8 (log 8). -/
def Obligations.PushStoresBelowTheStackPointer : Prop :=
  ∀ (r : Byte) (s : State), encode (.push r) = [0x45, r] ∧
    (∀ hr : r.toNat < 8, exec (.push r) s = .next { s with
      regs := s.regs.set 7 (s.regs[7] - 1)
      mem := Memory.write s.mem (s.regs[7] - 1) (if r = 7 then s.regs[7] - 1 else s.regs[r.toNat])
      pc := s.pc + 2 }) ∧
    (8 ≤ r.toNat → exec (.push r) s = .next { s with fault := some ⟨.operandAddress, s.pc, 0x45⟩ })

/-- POP writes the byte at x[7] to x[r], then increments x[7], advances pc by 2 and changes nothing else, memory among
it; r above 7 faults (44_stack.md R142). That POP 7 leaves the popped byte plus 1 is the spec's decision D14 (log 13),
that the pointer wraps its decision D2 (log 2), that an operand above 7 faults its decision D8 (log 8). -/
def Obligations.PopLoadsFromTheStackPointer : Prop :=
  ∀ (r : Byte) (s : State), encode (.pop r) = [0x46, r] ∧
    (∀ hr : r.toNat < 8, exec (.pop r) s = .next { s with
      regs := if r = 7 then s.regs.set 7 (readMem s s.regs[7] + 1)
        else (s.regs.set r.toNat (readMem s s.regs[7])).set 7 (s.regs[7] + 1)
      pc := s.pc + 2 }) ∧
    (8 ≤ r.toNat → exec (.pop r) s = .next { s with fault := some ⟨.operandAddress, s.pc, 0x46⟩ })

/-- PUSH r and a later POP r, with x[7] and the pushed cell left alone in between and everything else arbitrary, restore
x[r] and x[7] (44_stack.md R142, corner case 4). -/
def Obligations.PushThenPopRestores : Prop :=
  ∀ (r : Byte) (hr : r.toNat < 8) (s u : State), r ≠ 7 → Memory.wf s.mem = true →
    ∃ t : State, exec (.push r) s = .next t ∧
      (u.regs[7] = t.regs[7] → readMem u t.regs[7] = readMem t t.regs[7] →
        ∃ v : State, exec (.pop r) u = .next v ∧ v.regs[r.toNat] = s.regs[r.toNat] ∧ v.regs[7] = s.regs[7])

/-- Over any sequence of instructions with legal operands that never name x[7] as their destination, x[7] moves down by
the pushes and up by the pops, modulo 256; so from 0xF4 it is at most 0xF4 where the pops are at most the pushes and at
most 244 bytes are held (95_test_vectors.md E8; 90_conflicts.md C9: a property of programs, not a check of the hardware).
That the pointer wraps unchecked is the spec's decision D2 (log 2). -/
def Obligations.StackPointerTracksPushesAndPops : Prop :=
  ∀ (is : List Instr) (s t : State), execAll is s = .next t →
    (∀ i ∈ is, i.wellFormed = true ∧ writesSpExplicitly i = false) →
    (t.regs[7].toNat + (is.map pushCount).sum) % 256 = (s.regs[7].toNat + (is.map popCount).sum) % 256 ∧
    (s.regs[7] = 0xF4 → (is.map popCount).sum ≤ (is.map pushCount).sum →
      (is.map pushCount).sum ≤ (is.map popCount).sum + 244 →
      t.regs[7].toNat + ((is.map pushCount).sum - (is.map popCount).sum) = 244)

/-! ### Control transfer -/

/-- JMP sets pc to x[r] and changes nothing else; r above 7 faults (45_control_transfer.md R151). That
the operand is checked is in the rule's own text; R83 rests it on the spec's decision D8 (log 8). -/
def Obligations.JmpGoesToRegister : Prop :=
  ∀ (r : Byte) (s : State), encode (.jmp r) = [0x54, r] ∧
    (∀ hr : r.toNat < 8, exec (.jmp r) s = .next { s with pc := s.regs[r.toNat] }) ∧
    (8 ≤ r.toNat → exec (.jmp r) s = .next { s with fault := some ⟨.operandAddress, s.pc, 0x54⟩ })

/-- JEQ sets pc to x[r] when E is set, else to the next instruction, and changes nothing else; r above 7 faults, taken
or not (45_control_transfer.md R152). That
the operand is checked is in the rule's own text; R83 rests it on the spec's decision D8 (log 8). -/
def Obligations.JeqJumpsWhenEqual : Prop :=
  ∀ (r : Byte) (s : State), encode (.jeq r) = [0x55, r] ∧
    (∀ hr : r.toNat < 8, exec (.jeq r) s =
      .next { s with pc := if s.fl.getLsbD 0 = true then s.regs[r.toNat] else s.pc + 2 }) ∧
    (8 ≤ r.toNat → exec (.jeq r) s = .next { s with fault := some ⟨.operandAddress, s.pc, 0x55⟩ })

/-- JNE sets pc to x[r] when E is clear, else to the next instruction, and changes nothing else; r above 7 faults, taken
or not; after a CMP, E clear is the same as G or L set; and on the same FL exactly one of JEQ and JNE jumps
(45_control_transfer.md R153). That
the operand is checked is in the rule's own text; R83 rests it on the spec's decision D8 (log 8). -/
def Obligations.JneJumpsWhenNotEqual : Prop :=
  ∀ (r : Byte) (s : State), encode (.jne r) = [0x56, r] ∧
    (∀ hr : r.toNat < 8, exec (.jne r) s =
      .next { s with pc := if s.fl.getLsbD 0 = false then s.regs[r.toNat] else s.pc + 2 }) ∧
    (8 ≤ r.toNat → exec (.jne r) s = .next { s with fault := some ⟨.operandAddress, s.pc, 0x56⟩ }) ∧
    (∀ (a b : Byte) (t : State), a.toNat < 8 → b.toNat < 8 → exec (.cmp a b) s = .next t →
      (t.fl.getLsbD 0 = false ↔ t.fl.getLsbD 1 = true ∨ t.fl.getLsbD 2 = true)) ∧
    (∀ hr : r.toNat < 8, ∃ t u : State, exec (.jeq r) s = .next t ∧ exec (.jne r) s = .next u ∧
      (t.pc = s.regs[r.toNat] ∧ u.pc = s.pc + 2 ∨ t.pc = s.pc + 2 ∧ u.pc = s.regs[r.toNat]))

/-- CALL decrements x[7], stores pc + 2 at the new x[7], sets pc to x[r] and changes nothing else; r above 7 faults
(45_control_transfer.md R154). That CALL 7 jumps to the decremented pointer is the spec's decision D14 (log 13), that
pc + 2 and the pointer wrap its decisions D1 and D2 (log 1, 2), that an operand above 7 faults its decision D8
(log 8). -/
def Obligations.CallPushesReturnAddress : Prop :=
  ∀ (r : Byte) (s : State), encode (.call r) = [0x50, r] ∧
    (∀ hr : r.toNat < 8, exec (.call r) s = .next { s with
      regs := s.regs.set 7 (s.regs[7] - 1)
      mem := Memory.write s.mem (s.regs[7] - 1) (s.pc + 2)
      pc := if r = 7 then s.regs[7] - 1 else s.regs[r.toNat] }) ∧
    (8 ≤ r.toNat → exec (.call r) s = .next { s with fault := some ⟨.operandAddress, s.pc, 0x50⟩ })

/-- RET sets pc to the byte at x[7], increments x[7] and changes nothing else, memory among it; and a RET with x[7] and
the pushed cell as a CALL left them returns to the byte after the CALL's operand and restores x[7]
(45_control_transfer.md R155). -/
def Obligations.RetPopsPc : Prop :=
  encode .ret = [0x11] ∧
  (∀ s : State, exec .ret s = .next { s with pc := readMem s s.regs[7], regs := s.regs.set 7 (s.regs[7] + 1) }) ∧
  (∀ (r : Byte) (s u : State), r.toNat < 8 → Memory.wf s.mem = true →
    ∃ t : State, exec (.call r) s = .next t ∧
      (u.regs[7] = t.regs[7] → readMem u t.regs[7] = readMem t t.regs[7] →
        ∃ v : State, exec .ret u = .next v ∧ v.pc = s.pc + 2 ∧ v.regs[7] = s.regs[7]))

/-! ### Frames over every instruction -/

/-- An instruction leaves every register but those it writes: LDI, ADD, MUL and POP their first operand, and PUSH, POP,
CALL and RET the stack pointer (10_state.md R11). -/
def Obligations.RegistersChangeOnlyAsTabled : Prop :=
  ∀ (i : Instr) (s t : State) (r : RegIdx), exec i s = .next t → r.val ∉ writtenRegs i → t.regs[r] = s.regs[r]

/-- A register an instruction does not read cannot be told apart through it: with another value there, everything else
comes out the same, and the register itself keeps that value unless the instruction writes it (10_state.md R11). -/
def Obligations.UnreadRegisterDoesNotMatter : Prop :=
  ∀ (i : Instr) (s : State) (r : RegIdx) (v : Byte), r.val ∉ readRegs i s.fl →
    ∃ t : State, exec i s = .next t ∧
      exec i { s with regs := s.regs.set r v } =
        .next { t with regs := if i.wellFormed = true ∧ r.val ∈ writtenRegs i then t.regs else t.regs.set r v }

/-- PUSH and CALL store to one cell, at the stack pointer after the decrement, where the byte they push then reads
back; every other cell, and every cell for every other instruction, reads as before (20_memory.md R30, R37). What
PUSH 7 pushes is the spec's decision D14 (log 13). -/
def Obligations.MemoryChangesOnlyAtTheStoreAddress : Prop :=
  ∀ (i : Instr) (s t : State), exec i s = .next t →
    (∀ a : Byte, storeAddr i s ≠ some a → readMem t a = readMem s a) ∧
    (∀ a : Byte, storeAddr i s = some a → Memory.wf s.mem = true →
      (∀ (r : Byte) (hr : r.toNat < 8), i = .push r → readMem t a = (decSp s).regs[r.toNat]) ∧
      (∀ r : Byte, i = .call r → readMem t a = s.pc + 2))

/-- A cell that a step neither fetches nor pops cannot be told apart through it: with another byte there, the registers,
pc, the flags, the latches and OUT come out the same, and so does every cell but that one, which keeps the byte unless
the step stores to it (20_memory.md R40, R30). Which bytes a step fetches is the spec's decision D15 (log 14). -/
def Obligations.UnreadCellDoesNotMatter : Prop :=
  ∀ (s : State) (i : Instr) (rest : List Byte) (c v : Byte), s.run = true → s.fault = none →
    Memory.wf s.mem = true →
    decode [readMem s s.pc, readMem s (s.pc + 1), readMem s (s.pc + 2)] = .ok (i, rest) →
    (∀ k : Nat, k < (encode i).length → c ≠ s.pc + BitVec.ofNat 8 k) →
    (i.opcode = .pop ∨ i.opcode = .ret → c ≠ s.regs[7]) →
    ∃ t u : State, step s = .next t ∧ step (writeMem c v s) = .next u ∧
      u = { t with mem := u.mem } ∧
      ∀ a : Byte, readMem u a = if a = c ∧ storeAddr i s ≠ some c then v else readMem t a

/-- The memory's canonical form: two memories in it that read alike at every address are the same data
(10_state.md R24). -/
def Obligations.CanonicalMemoriesThatReadAlikeAreEqual : Prop :=
  ∀ m n : Memory, Memory.wf m = true → Memory.wf n = true → (∀ a : Byte, Memory.read m a = Memory.read n a) → m = n

/-! ### The host's moves -/

/-- load accepts an image of at most 256 bytes, puts byte i at address i, leaves every other cell and everything but
memory alone; a longer image is refused with CapacityError and no state comes of it; `load_err` tells the two apart
(20_memory.md R42, R43, 40_core_blocks_and_step.md R71: when a load may happen, how often, and that a longer image is
refused is the spec's decision D12, the port `load_err` its decision D17; log 11, 16). -/
def Obligations.LoadWritesTheImageOrRefuses : Prop :=
  ∀ (image : List Byte) (s : State), Memory.wf s.mem = true →
    (image.length ≤ 256 → ∃ m : Memory, hostLoad image s = .next { s with mem := m } ∧
      (∀ (i : Nat) (hi : i < image.length), Memory.read m (BitVec.ofNat 8 i) = image[i]) ∧
      (∀ a : Byte, image.length ≤ a.toNat → Memory.read m a = readMem s a)) ∧
    (256 < image.length → hostLoad image s = .fault .capacityError) ∧
    (loadErr (hostLoad image s) = true ↔ 256 < image.length)

/-- host_write sets one cell to the value truncated to 8 bits, which host_read then returns, and changes nothing else
(20_memory.md R41: the spec's decision D12; log 11). -/
def Obligations.HostWriteThenReadReturnsTheByte : Prop :=
  ∀ (s : State) (a : Byte) (v : Nat), Memory.wf s.mem = true →
    (hostRead a (hostWrite a v s)).toNat = v % 256 ∧
    (∀ b : Byte, b ≠ a → hostRead b (hostWrite a v s) = hostRead b s) ∧
    hostWrite a v s = { s with mem := (hostWrite a v s).mem }

/-- A run request under a budget is that many step requests, and once it has ended in Halted or Faulted a larger budget
gives the same state (40_core_blocks_and_step.md R87, R80: the spec's decisions D13, D23; log 12, 22). -/
def Obligations.RunIsRepeatedSteps : Prop :=
  (∀ (k : Nat) (s : State), hostRun k s = core.run k s) ∧
  (∀ (k n : Nat) (s t : State), hostRun k s = .next t → t.macroState ≠ .running → hostRun (k + n) s = .next t)

/-- The observation ports show the latches, the fault record under its numeric code, pc, FL and the registers; the code
of CapacityError is 3, which `fault_code` never shows
(40_core_blocks_and_step.md R71, 60_exceptions.md R170: the spec's decisions D10, D17, D21; log 9, 16, 17, 25). -/
def Obligations.PortsShowTheState : Prop :=
  ∀ s : State,
    (observe s).running = s.run ∧ ((observe s).faulted = true ↔ s.fault ≠ none) ∧
    (s.fault = none → (observe s).faultCode = 0) ∧
    (∀ f : FaultRecord, s.fault = some f →
      (observe s).faultAddr = some f.addr ∧ (observe s).faultOpcode = some f.opcode ∧
      (observe s).faultCode = if f.code = .illegalInstruction then 1 else 2) ∧
    (observe s).dbgPc = s.pc ∧ (observe s).dbgFl = s.fl ∧ (observe s).dbgX = s.regs ∧
    Fault.capacityError.number = 3 ∧ (observe s).faultCode ≠ Fault.capacityError.number

/-! ### The two descriptions of the machine -/

/-- The core as seven blocks under the control signals does in every state exactly what the step by the instruction
rules does, whatever the latches OP1 and OP2 held before (40_core_blocks_and_step.md R70 to R79, R89; 10_state.md R26;
the blocks and signals are the spec's decision D17, log 16; that a signal the table leaves unused is off is the model's
DESIGN CHOICE, log 23). -/
def Obligations.BlocksRefineTheInstructionRules : Prop :=
  ∀ (op1Latch op2Latch : Byte) (s : State), step s = .next (stepBlocks op1Latch op2Latch s)

/-! ### The invariant under every move of the host -/

/-- Every move of the host, from every state with the invariant, gives a state with it: reset, a load of any image, a
host_write of any value at any address, and a step (40_core_blocks_and_step.md R90, 20_memory.md R41 to R43). Which moves
the host has rests on the spec's decisions D12 and D21 (log 11, 25). -/
def Obligations.HostMovesKeepInvariant : Prop :=
  ∀ (m : HostMove) (s t : State), s.inv = true → m.apply s = .next t → t.inv = true
end

