-- ==== Sys2Proof/Laws/Decode.lean ====
section
/-! SUPPORT. The laws of the opcode map. -/

namespace Sys2Proof

/-- Every mnemonic stands in the map's list. -/
theorem Opcode.mem_all (o : Opcode) : o ∈ Opcode.all := by
  cases o <;> decide

/-- No two opcodes have the same byte. -/
theorem Opcode.bytes_distinct : Opcode.all.Pairwise fun o p => o.byte ≠ p.byte := by
  decide

/-- The byte of a mnemonic is recognised as that mnemonic. -/
@[simp] theorem Opcode.ofByte_byte (o : Opcode) : Opcode.ofByte o.byte = some o := by
  cases o <;> decide

/-- A recognised byte is the byte of the mnemonic it is recognised as. -/
theorem Opcode.byte_of_ofByte {ir : Byte} {o : Opcode} (h : Opcode.ofByte ir = some o) : o.byte = ir := by
  have := List.find?_some h
  simpa using this

/-- An instruction's encoding begins with the byte of its mnemonic. -/
theorem encode_head (i : Instr) : (encode i).head? = some i.opcode.byte := by
  cases i <;> rfl

/-- An instruction built from a mnemonic has that mnemonic. -/
@[simp] theorem Opcode.opcode_instr (o : Opcode) (op1 op2 : Byte) : (o.instr op1 op2).opcode = o := by
  cases o <;> rfl

end Sys2Proof
end

