-- ==== Sys2Proof/Laws/Memory.lean ====
section
/-! SUPPORT. The laws of the memory: a read after a write, and that every memory operation keeps the canonical form. -/

namespace Sys2Proof.Machine

/-- A cell below the form's lower bound is not listed. -/
theorem Memory.lookup_of_lt {m : Memory} {lo a : Nat} (h : Memory.wfFrom lo m = true) (ha : a < lo) :
    Memory.lookup m a = Config.memReset := by
  induction m generalizing lo with
  | nil => rfl
  | cons c rest ih =>
    obtain ⟨k, v⟩ := c
    simp only [Memory.wfFrom, Bool.and_eq_true, decide_eq_true_eq] at h
    rw [Memory.lookup, if_neg (by omega)]
    exact ih h.2 (by omega)

/-- A weaker lower bound. -/
theorem Memory.wfFrom_mono {m : Memory} {lo lo' : Nat} (h : Memory.wfFrom lo m = true) (hl : lo' ≤ lo) :
    Memory.wfFrom lo' m = true := by
  cases m with
  | nil => rfl
  | cons c rest =>
    simp only [Memory.wfFrom, Bool.and_eq_true, decide_eq_true_eq] at h ⊢
    exact ⟨⟨⟨by omega, h.1.1.2⟩, h.1.2⟩, h.2⟩

/-- Storing leaves every other address alone, whatever the list. -/
theorem Memory.lookup_store_ne (m : Memory) {a b : Nat} (v : Byte) (h : b ≠ a) :
    Memory.lookup (Memory.store m a v) b = Memory.lookup m b := by
  induction m with
  | nil => unfold Memory.store; split <;> simp [Memory.lookup, Ne.symm h]
  | cons c rest ih =>
    obtain ⟨k, w⟩ := c
    unfold Memory.store
    split
    · split <;> simp [Memory.lookup, Ne.symm h]
    · split
      · next hk => subst hk; split <;> simp [Memory.lookup, Ne.symm h]
      · simp only [Memory.lookup, ih]

/-- A canonical memory reads the stored byte at its address. -/
theorem Memory.lookup_store_self {m : Memory} {lo : Nat} (hm : Memory.wfFrom lo m = true) (a : Nat) (v : Byte) :
    Memory.lookup (Memory.store m a v) a = v := by
  induction m generalizing lo with
  | nil => unfold Memory.store; split <;> simp_all [Memory.lookup]
  | cons c rest ih =>
    obtain ⟨k, w⟩ := c
    simp only [Memory.wfFrom, Bool.and_eq_true, decide_eq_true_eq] at hm
    unfold Memory.store
    split
    · split
      · next hv =>
        subst hv
        rw [Memory.lookup, if_neg (by omega)]
        exact Memory.lookup_of_lt hm.2 (by omega)
      · simp [Memory.lookup]
    · split
      · next hk =>
        subst hk
        split
        · next hv => subst hv; exact Memory.lookup_of_lt hm.2 (by omega)
        · simp [Memory.lookup]
      · next hk =>
        rw [Memory.lookup, if_neg (by omega)]
        exact ih hm.2

/-- Storing keeps the canonical form. -/
theorem Memory.wfFrom_store {m : Memory} {lo a : Nat} (v : Byte) (hm : Memory.wfFrom lo m = true) (hl : lo ≤ a)
    (ha : a < Config.memCells) : Memory.wfFrom lo (Memory.store m a v) = true := by
  induction m generalizing lo with
  | nil => unfold Memory.store; split <;> simp_all [Memory.wfFrom]
  | cons c rest ih =>
    obtain ⟨k, w⟩ := c
    have h := hm
    simp only [Memory.wfFrom, Bool.and_eq_true, decide_eq_true_eq] at h
    unfold Memory.store
    split
    · split
      · exact hm
      · next hv =>
        simp only [Memory.wfFrom, Bool.and_eq_true, decide_eq_true_eq]
        exact ⟨⟨⟨hl, ha⟩, hv⟩, ⟨⟨by omega, h.1.1.2⟩, h.1.2⟩, h.2⟩
    · split
      · next hk =>
        subst hk
        split
        · exact Memory.wfFrom_mono h.2 (by omega)
        · next hv =>
          simp only [Memory.wfFrom, Bool.and_eq_true, decide_eq_true_eq]
          exact ⟨⟨⟨hl, ha⟩, hv⟩, h.2⟩
      · simp only [Memory.wfFrom, Bool.and_eq_true, decide_eq_true_eq]
        exact ⟨h.1, ih h.2 (by omega)⟩

/-- A read after a write, at the same address. -/
@[simp] theorem Memory.read_write_self {m : Memory} (hm : Memory.wf m = true) (a v : Byte) :
    Memory.read (Memory.write m a v) a = v :=
  Memory.lookup_store_self hm a.toNat v

/-- A read after a write, at another address. -/
theorem Memory.read_write_ne (m : Memory) {a b : Byte} (v : Byte) (h : b ≠ a) :
    Memory.read (Memory.write m a v) b = Memory.read m b :=
  Memory.lookup_store_ne m v fun e => h (BitVec.eq_of_toNat_eq e)

/-- The empty memory is canonical. -/
@[simp] theorem Memory.wf_nil : Memory.wf [] = true := rfl

/-- A write keeps the canonical form. -/
@[simp] theorem Memory.wf_write {m : Memory} (hm : Memory.wf m = true) (a v : Byte) :
    Memory.wf (Memory.write m a v) = true :=
  Memory.wfFrom_store v hm (Nat.zero_le _) a.isLt

/-- Writing several bytes keeps the canonical form. -/
@[simp] theorem Memory.wf_writeBytes {m : Memory} (hm : Memory.wf m = true) (a : Byte) (bytes : List Byte) :
    Memory.wf (Memory.writeBytes m a bytes) = true := by
  induction bytes generalizing m a with
  | nil => exact hm
  | cons b rest ih => exact ih (Memory.wf_write hm a b) (a + 1)

/-- Every cell of the empty memory reads as the reset value. -/
@[simp] theorem Memory.read_nil (a : Byte) : Memory.read [] a = Config.memReset := rfl

end Sys2Proof.Machine
end

