-- ==== Sys2Proof/Laws/State.lean ====
section
/-! SUPPORT. What each named update of the state leaves in each field, one lemma per field per update. -/

namespace Sys2Proof.Machine

/-! ### Reads of the state, in terms of its fields -/

@[simp] theorem readMem_eq (s : State) (a : Byte) : readMem s a = Memory.read s.mem a := rfl
@[simp] theorem readReg_eq (s : State) (r : RegIdx) : readReg s r = s.regs[r] := rfl
@[simp] theorem sp_eq (s : State) : sp s = s.regs[7] := rfl
@[simp] theorem loadAtSp_eq (s : State) : loadAtSp s = Memory.read s.mem s.regs[7] := rfl
@[simp] theorem fetchOpcode_eq (s : State) : fetchOpcode s = Memory.read s.mem s.pc := rfl

/-! ### writeMem -/

@[simp] theorem writeMem_mem (a v : Byte) (s : State) : (writeMem a v s).mem = Memory.write s.mem a v := rfl
@[simp] theorem writeMem_regs (a v : Byte) (s : State) : (writeMem a v s).regs = s.regs := rfl
@[simp] theorem writeMem_pc (a v : Byte) (s : State) : (writeMem a v s).pc = s.pc := rfl
@[simp] theorem writeMem_fl (a v : Byte) (s : State) : (writeMem a v s).fl = s.fl := rfl
@[simp] theorem writeMem_run (a v : Byte) (s : State) : (writeMem a v s).run = s.run := rfl
@[simp] theorem writeMem_fault (a v : Byte) (s : State) : (writeMem a v s).fault = s.fault := rfl
@[simp] theorem writeMem_out (a v : Byte) (s : State) : (writeMem a v s).out = s.out := rfl

/-! ### writeReg -/

@[simp] theorem writeReg_mem (r : RegIdx) (v : Byte) (s : State) : (writeReg r v s).mem = s.mem := rfl
@[simp] theorem writeReg_regs (r : RegIdx) (v : Byte) (s : State) : (writeReg r v s).regs = s.regs.set r v := rfl
@[simp] theorem writeReg_pc (r : RegIdx) (v : Byte) (s : State) : (writeReg r v s).pc = s.pc := rfl
@[simp] theorem writeReg_fl (r : RegIdx) (v : Byte) (s : State) : (writeReg r v s).fl = s.fl := rfl
@[simp] theorem writeReg_run (r : RegIdx) (v : Byte) (s : State) : (writeReg r v s).run = s.run := rfl
@[simp] theorem writeReg_fault (r : RegIdx) (v : Byte) (s : State) : (writeReg r v s).fault = s.fault := rfl
@[simp] theorem writeReg_out (r : RegIdx) (v : Byte) (s : State) : (writeReg r v s).out = s.out := rfl

/-! ### setPc -/

@[simp] theorem setPc_mem (p : Byte) (s : State) : (setPc p s).mem = s.mem := rfl
@[simp] theorem setPc_regs (p : Byte) (s : State) : (setPc p s).regs = s.regs := rfl
@[simp] theorem setPc_pc (p : Byte) (s : State) : (setPc p s).pc = p := rfl
@[simp] theorem setPc_fl (p : Byte) (s : State) : (setPc p s).fl = s.fl := rfl
@[simp] theorem setPc_run (p : Byte) (s : State) : (setPc p s).run = s.run := rfl
@[simp] theorem setPc_fault (p : Byte) (s : State) : (setPc p s).fault = s.fault := rfl
@[simp] theorem setPc_out (p : Byte) (s : State) : (setPc p s).out = s.out := rfl

/-! ### setFl -/

@[simp] theorem setFl_mem (f : FlagBits) (s : State) : (setFl f s).mem = s.mem := rfl
@[simp] theorem setFl_regs (f : FlagBits) (s : State) : (setFl f s).regs = s.regs := rfl
@[simp] theorem setFl_pc (f : FlagBits) (s : State) : (setFl f s).pc = s.pc := rfl
@[simp] theorem setFl_fl (f : FlagBits) (s : State) : (setFl f s).fl = f := rfl
@[simp] theorem setFl_run (f : FlagBits) (s : State) : (setFl f s).run = s.run := rfl
@[simp] theorem setFl_fault (f : FlagBits) (s : State) : (setFl f s).fault = s.fault := rfl
@[simp] theorem setFl_out (f : FlagBits) (s : State) : (setFl f s).out = s.out := rfl

/-! ### clearRun -/

@[simp] theorem clearRun_mem (s : State) : (clearRun s).mem = s.mem := rfl
@[simp] theorem clearRun_regs (s : State) : (clearRun s).regs = s.regs := rfl
@[simp] theorem clearRun_pc (s : State) : (clearRun s).pc = s.pc := rfl
@[simp] theorem clearRun_fl (s : State) : (clearRun s).fl = s.fl := rfl
@[simp] theorem clearRun_run (s : State) : (clearRun s).run = false := rfl
@[simp] theorem clearRun_fault (s : State) : (clearRun s).fault = s.fault := rfl
@[simp] theorem clearRun_out (s : State) : (clearRun s).out = s.out := rfl

/-! ### emit -/

@[simp] theorem emit_mem (v : Byte) (s : State) : (emit v s).mem = s.mem := rfl
@[simp] theorem emit_regs (v : Byte) (s : State) : (emit v s).regs = s.regs := rfl
@[simp] theorem emit_pc (v : Byte) (s : State) : (emit v s).pc = s.pc := rfl
@[simp] theorem emit_fl (v : Byte) (s : State) : (emit v s).fl = s.fl := rfl
@[simp] theorem emit_run (v : Byte) (s : State) : (emit v s).run = s.run := rfl
@[simp] theorem emit_fault (v : Byte) (s : State) : (emit v s).fault = s.fault := rfl
@[simp] theorem emit_out (v : Byte) (s : State) : (emit v s).out = s.out ++ [v] := rfl

/-! ### raiseFault -/

@[simp] theorem raiseFault_mem (c : FaultCode) (ir : Byte) (s : State) : (raiseFault c ir s).mem = s.mem := rfl
@[simp] theorem raiseFault_regs (c : FaultCode) (ir : Byte) (s : State) : (raiseFault c ir s).regs = s.regs := rfl
@[simp] theorem raiseFault_pc (c : FaultCode) (ir : Byte) (s : State) : (raiseFault c ir s).pc = s.pc := rfl
@[simp] theorem raiseFault_fl (c : FaultCode) (ir : Byte) (s : State) : (raiseFault c ir s).fl = s.fl := rfl
@[simp] theorem raiseFault_run (c : FaultCode) (ir : Byte) (s : State) : (raiseFault c ir s).run = s.run := rfl
@[simp] theorem raiseFault_fault (c : FaultCode) (ir : Byte) (s : State) : (raiseFault c ir s).fault = some ⟨c, s.pc, ir⟩ := rfl
@[simp] theorem raiseFault_out (c : FaultCode) (ir : Byte) (s : State) : (raiseFault c ir s).out = s.out := rfl

/-! ### advance -/

@[simp] theorem advance_mem (o : Opcode) (s : State) : (advance o s).mem = s.mem := rfl
@[simp] theorem advance_regs (o : Opcode) (s : State) : (advance o s).regs = s.regs := rfl
@[simp] theorem advance_pc (o : Opcode) (s : State) : (advance o s).pc = nextPc o s := rfl
@[simp] theorem advance_fl (o : Opcode) (s : State) : (advance o s).fl = s.fl := rfl
@[simp] theorem advance_run (o : Opcode) (s : State) : (advance o s).run = s.run := rfl
@[simp] theorem advance_fault (o : Opcode) (s : State) : (advance o s).fault = s.fault := rfl
@[simp] theorem advance_out (o : Opcode) (s : State) : (advance o s).out = s.out := rfl

/-! ### decSp -/

@[simp] theorem decSp_mem (s : State) : (decSp s).mem = s.mem := rfl
@[simp] theorem decSp_regs (s : State) : (decSp s).regs = s.regs.set 7 (s.regs[7] - 1) := rfl
@[simp] theorem decSp_pc (s : State) : (decSp s).pc = s.pc := rfl
@[simp] theorem decSp_fl (s : State) : (decSp s).fl = s.fl := rfl
@[simp] theorem decSp_run (s : State) : (decSp s).run = s.run := rfl
@[simp] theorem decSp_fault (s : State) : (decSp s).fault = s.fault := rfl
@[simp] theorem decSp_out (s : State) : (decSp s).out = s.out := rfl

/-! ### incSp -/

@[simp] theorem incSp_mem (s : State) : (incSp s).mem = s.mem := rfl
@[simp] theorem incSp_regs (s : State) : (incSp s).regs = s.regs.set 7 (s.regs[7] + 1) := rfl
@[simp] theorem incSp_pc (s : State) : (incSp s).pc = s.pc := rfl
@[simp] theorem incSp_fl (s : State) : (incSp s).fl = s.fl := rfl
@[simp] theorem incSp_run (s : State) : (incSp s).run = s.run := rfl
@[simp] theorem incSp_fault (s : State) : (incSp s).fault = s.fault := rfl
@[simp] theorem incSp_out (s : State) : (incSp s).out = s.out := rfl

/-! ### storeAtSp -/

@[simp] theorem storeAtSp_mem (v : Byte) (s : State) : (storeAtSp v s).mem = Memory.write s.mem s.regs[7] v := rfl
@[simp] theorem storeAtSp_regs (v : Byte) (s : State) : (storeAtSp v s).regs = s.regs := rfl
@[simp] theorem storeAtSp_pc (v : Byte) (s : State) : (storeAtSp v s).pc = s.pc := rfl
@[simp] theorem storeAtSp_fl (v : Byte) (s : State) : (storeAtSp v s).fl = s.fl := rfl
@[simp] theorem storeAtSp_run (v : Byte) (s : State) : (storeAtSp v s).run = s.run := rfl
@[simp] theorem storeAtSp_fault (v : Byte) (s : State) : (storeAtSp v s).fault = s.fault := rfl
@[simp] theorem storeAtSp_out (v : Byte) (s : State) : (storeAtSp v s).out = s.out := rfl

end Sys2Proof.Machine
end

