-- ==== Sys2Proof/Laws/Operands.lean ====
section
/-! SUPPORT. What the operand forms can answer, for the meanings' proofs to cite. -/

namespace Sys2Proof.Machine

/-- A legal operand byte names the register of its number. -/
theorem regIndex_of_lt {b : Byte} (h : b.toNat < 8) : regIndex b = some ⟨b.toNat, h⟩ := by
  simp [regIndex, h]

/-- An operand byte above 7 names no register. -/
theorem regIndex_of_ge {b : Byte} (h : 8 ≤ b.toNat) : regIndex b = none := by
  simp [regIndex, Nat.not_lt.mpr h]

/-- The operand check and the well-formedness check agree. -/
theorem regOperandOk_iff (b : Byte) : regOperandOk b = true ↔ ∃ r, regIndex b = some r := by
  by_cases h : b.toNat < 8 <;> simp [regOperandOk, regIndex, h]

/-- One legal register operand: the effect of the register it names. -/
theorem withReg_of_lt (o : Opcode) {b : Byte} (s : State) (k : RegIdx → State) (h : b.toNat < 8) :
    withReg o b s k = .next (k ⟨b.toNat, h⟩) := by
  simp [withReg, regIndex_of_lt h]

/-- One illegal register operand: the fault, and nothing else. -/
theorem withReg_of_ge (o : Opcode) {b : Byte} (s : State) (k : RegIdx → State) (h : 8 ≤ b.toNat) :
    withReg o b s k = .next (raiseFault .operandAddress o.byte s) := by
  simp [withReg, regIndex_of_ge h]

/-- Two legal register operands. -/
theorem withRegs_of_lt (o : Opcode) {b1 b2 : Byte} (s : State) (k : RegIdx → RegIdx → State) (h1 : b1.toNat < 8)
    (h2 : b2.toNat < 8) : withRegs o b1 b2 s k = .next (k ⟨b1.toNat, h1⟩ ⟨b2.toNat, h2⟩) := by
  simp [withRegs, regIndex_of_lt h1, regIndex_of_lt h2]

/-- Either of two register operands illegal: the fault, and nothing else. -/
theorem withRegs_of_ge (o : Opcode) {b1 b2 : Byte} (s : State) (k : RegIdx → RegIdx → State)
    (h : 8 ≤ b1.toNat ∨ 8 ≤ b2.toNat) :
    withRegs o b1 b2 s k = .next (raiseFault .operandAddress o.byte s) := by
  by_cases h1 : b1.toNat < 8
  · simp [withRegs, regIndex_of_lt h1, regIndex_of_ge (h.resolve_left (by omega))]
  · simp [withRegs, regIndex_of_ge (Nat.not_lt.mp h1)]

/-- All that one register operand can lead to. -/
theorem withReg_cases {o : Opcode} {b : Byte} {s t : State} {k : RegIdx → State} (h : withReg o b s k = .next t) :
    (∃ r, regIndex b = some r ∧ t = k r) ∨
      (regIndex b = none ∧ t = raiseFault .operandAddress o.byte s) := by
  unfold withReg at h
  split at h
  · next r hr => exact .inl ⟨r, hr, (Host.Outcome.next.inj h).symm⟩
  · next hr => exact .inr ⟨hr, (Host.Outcome.next.inj h).symm⟩

/-- All that two register operands can lead to. -/
theorem withRegs_cases {o : Opcode} {b1 b2 : Byte} {s t : State} {k : RegIdx → RegIdx → State}
    (h : withRegs o b1 b2 s k = .next t) :
    (∃ r1 r2, regIndex b1 = some r1 ∧ regIndex b2 = some r2 ∧ t = k r1 r2) ∨
      ((regIndex b1 = none ∨ regIndex b2 = none) ∧ t = raiseFault .operandAddress o.byte s) := by
  unfold withRegs at h
  split at h
  · next h1 => exact .inr ⟨.inl h1, (Host.Outcome.next.inj h).symm⟩
  · next r1 h1 =>
    split at h
    · next h2 => exact .inr ⟨.inr h2, (Host.Outcome.next.inj h).symm⟩
    · next r2 h2 => exact .inl ⟨r1, r2, h1, h2, (Host.Outcome.next.inj h).symm⟩

/-- A register read after a write of the same register. -/
theorem readReg_writeReg_self (r : RegIdx) (v : Byte) (s : State) : readReg (writeReg r v s) r = v := by
  simp

/-- A register read after a write of another. -/
theorem readReg_writeReg_ne {r q : RegIdx} (v : Byte) (s : State) (h : q ≠ r) :
    readReg (writeReg r v s) q = readReg s q := by
  have : r.val ≠ q.val := fun e => h (Fin.ext e.symm)
  simp [this]

/-- The address past an instruction of one byte. -/
theorem nextPc_of_nops_zero {o : Opcode} (h : nopsField o.byte = 0) (s : State) : nextPc o s = s.pc + 1 := by
  simp [nextPc, h]

/-- The address past an instruction of two bytes. -/
theorem nextPc_of_nops_one {o : Opcode} (h : nopsField o.byte = 1) (s : State) : nextPc o s = s.pc + 2 := by
  rw [nextPc, h, BitVec.add_assoc]; rfl

/-- The address past an instruction of three bytes. -/
theorem nextPc_of_nops_two {o : Opcode} (h : nopsField o.byte = 2) (s : State) : nextPc o s = s.pc + 3 := by
  rw [nextPc, h, BitVec.add_assoc]; rfl

end Sys2Proof.Machine
end

