-- ==== Sys2Proof/Laws/PerInstr.lean ====
section
/-! SUPPORT. Statements made per instruction, with one lemma per constructor. -/

namespace Sys2Proof.Laws

/-- An instruction's encoding is its opcode byte and as many operand bytes as bits 7:6 of that byte say
(30_encoding.md R50, R53). -/
def EncodingLength.Statement (i : Instr) : Prop :=
  ∃ (ir : Byte) (ops : List Byte), encode i = ir :: ops ∧ ops.length = (nopsField ir).toNat

theorem EncodingLength.halt : EncodingLength.Statement .halt := ⟨_, _, rfl, by simp [nopsField]⟩
theorem EncodingLength.ldi (r imm8 : Byte) : EncodingLength.Statement (.ldi r imm8) := ⟨_, _, rfl, by simp [nopsField]⟩
theorem EncodingLength.prn (r : Byte) : EncodingLength.Statement (.prn r) := ⟨_, _, rfl, by simp [nopsField]⟩
theorem EncodingLength.mul (a b : Byte) : EncodingLength.Statement (.mul a b) := ⟨_, _, rfl, by simp [nopsField]⟩
theorem EncodingLength.add (a b : Byte) : EncodingLength.Statement (.add a b) := ⟨_, _, rfl, by simp [nopsField]⟩
theorem EncodingLength.push (r : Byte) : EncodingLength.Statement (.push r) := ⟨_, _, rfl, by simp [nopsField]⟩
theorem EncodingLength.pop (r : Byte) : EncodingLength.Statement (.pop r) := ⟨_, _, rfl, by simp [nopsField]⟩
theorem EncodingLength.call (r : Byte) : EncodingLength.Statement (.call r) := ⟨_, _, rfl, by simp [nopsField]⟩
theorem EncodingLength.ret : EncodingLength.Statement .ret := ⟨_, _, rfl, by simp [nopsField]⟩
theorem EncodingLength.cmp (a b : Byte) : EncodingLength.Statement (.cmp a b) := ⟨_, _, rfl, by simp [nopsField]⟩
theorem EncodingLength.jmp (r : Byte) : EncodingLength.Statement (.jmp r) := ⟨_, _, rfl, by simp [nopsField]⟩
theorem EncodingLength.jne (r : Byte) : EncodingLength.Statement (.jne r) := ⟨_, _, rfl, by simp [nopsField]⟩
theorem EncodingLength.jeq (r : Byte) : EncodingLength.Statement (.jeq r) := ⟨_, _, rfl, by simp [nopsField]⟩

/-- Bit 4 of the opcode byte, P, is set exactly when the control signals take pc from elsewhere than the generic advance
(30_encoding.md R54, 40_core_blocks_and_step.md R89). -/
def SetsPcBit.Statement (i : Instr) : Prop :=
  ∀ (ir : Byte) (ops : List Byte), encode i = ir :: ops →
    (setsPcField ir = true ↔ (Machine.controlSignals i.opcode).pcSel ≠ .seq)

theorem SetsPcBit.halt : SetsPcBit.Statement .halt := by
  rintro _ _ ⟨⟩; simp [setsPcField, Machine.controlSignals, Instr.opcode]
theorem SetsPcBit.ldi (r imm8 : Byte) : SetsPcBit.Statement (.ldi r imm8) := by
  rintro _ _ ⟨⟩; simp [setsPcField, Machine.controlSignals, Instr.opcode]
theorem SetsPcBit.prn (r : Byte) : SetsPcBit.Statement (.prn r) := by
  rintro _ _ ⟨⟩; simp [setsPcField, Machine.controlSignals, Instr.opcode]
theorem SetsPcBit.mul (a b : Byte) : SetsPcBit.Statement (.mul a b) := by
  rintro _ _ ⟨⟩; simp [setsPcField, Machine.controlSignals, Instr.opcode]
theorem SetsPcBit.add (a b : Byte) : SetsPcBit.Statement (.add a b) := by
  rintro _ _ ⟨⟩; simp [setsPcField, Machine.controlSignals, Instr.opcode]
theorem SetsPcBit.push (r : Byte) : SetsPcBit.Statement (.push r) := by
  rintro _ _ ⟨⟩; simp [setsPcField, Machine.controlSignals, Instr.opcode]
theorem SetsPcBit.pop (r : Byte) : SetsPcBit.Statement (.pop r) := by
  rintro _ _ ⟨⟩; simp [setsPcField, Machine.controlSignals, Instr.opcode]
theorem SetsPcBit.call (r : Byte) : SetsPcBit.Statement (.call r) := by
  rintro _ _ ⟨⟩; simp [setsPcField, Machine.controlSignals, Instr.opcode]
theorem SetsPcBit.ret : SetsPcBit.Statement .ret := by
  rintro _ _ ⟨⟩; simp [setsPcField, Machine.controlSignals, Instr.opcode]
theorem SetsPcBit.cmp (a b : Byte) : SetsPcBit.Statement (.cmp a b) := by
  rintro _ _ ⟨⟩; simp [setsPcField, Machine.controlSignals, Instr.opcode]
theorem SetsPcBit.jmp (r : Byte) : SetsPcBit.Statement (.jmp r) := by
  rintro _ _ ⟨⟩; simp [setsPcField, Machine.controlSignals, Instr.opcode]
theorem SetsPcBit.jne (r : Byte) : SetsPcBit.Statement (.jne r) := by
  rintro _ _ ⟨⟩; simp [setsPcField, Machine.controlSignals, Instr.opcode]
theorem SetsPcBit.jeq (r : Byte) : SetsPcBit.Statement (.jeq r) := by
  rintro _ _ ⟨⟩; simp [setsPcField, Machine.controlSignals, Instr.opcode]

end Sys2Proof.Laws
end

