-- ==== Sys2Proof/Laws/Step.lean ====
section
/-! SUPPORT. What fetching and a step can do. -/

namespace Sys2Proof.Machine

/-- Running, in terms of the two latches. -/
theorem isRunning_iff (s : State) : s.isRunning = true ↔ s.run = true ∧ s.fault = none := by
  simp [State.isRunning]

/-- The fetched bytes of a legal opcode always decode, with no byte left over. -/
theorem decode_fetchBytes_of_legal {s : State} {o : Opcode} (h : Opcode.ofByte (fetchOpcode s) = some o) :
    ∃ op1 op2, decode (fetchBytes s) = .ok (o.instr op1 op2, []) := by
  cases o <;> simp only [fetchBytes, h, decode] <;> exact ⟨_, _, rfl⟩

/-- The fetched byte of an illegal opcode is refused under that name. -/
theorem decode_fetchBytes_of_illegal {s : State} (h : Opcode.ofByte (fetchOpcode s) = none) :
    decode (fetchBytes s) = .error (.illegalOpcode (fetchOpcode s)) := by
  simp only [fetchBytes, h, decode]

/-- All that a step can do: nothing outside Running; the illegal-opcode fault; or the decoded instruction. -/
theorem step_cases (s : State) :
    (s.isRunning = false ∧ step s = .next s) ∨
    (s.isRunning = true ∧ Opcode.ofByte (fetchOpcode s) = none ∧
      step s = .next (raiseFault .illegalInstruction (fetchOpcode s) s)) ∨
    (s.isRunning = true ∧ ∃ i, decode (fetchBytes s) = .ok (i, []) ∧ i.opcode.byte = fetchOpcode s ∧
      step s = exec i s) := by
  cases hr : s.isRunning with
  | false => exact .inl ⟨rfl, by simp [step, hr]⟩
  | true =>
    cases ho : Opcode.ofByte (fetchOpcode s) with
    | none => exact .inr (.inl ⟨rfl, rfl, by simp [step, hr, decode_fetchBytes_of_illegal ho]⟩)
    | some o =>
      obtain ⟨op1, op2, hd⟩ := decode_fetchBytes_of_legal ho
      refine .inr (.inr ⟨rfl, _, hd, ?_, by simp [step, hr, hd]⟩)
      simpa using Opcode.byte_of_ofByte ho

/-- One more step of a run, when the step answers a next state. -/
theorem run_succ_of_next (M : Host.Core) (k : Nat) {s t : M.State} (h : M.step s = .next t) :
    M.run (k + 1) s = M.run k t := by
  rw [Host.Core.run, h]

end Sys2Proof.Machine
end

