-- ==== Sys2Proof/Tests/Slice0.lean ====
section
/-! SUPPORT. The model's own tests. Words are written out from 30_encoding.md R57 and R51; expected results are those of
spec/95_test_vectors.md, whose vector is named with each test. Then, for each statement with hypotheses, a witness that
meets them, with boundary values of register operands (7 legal, 8 not). -/

namespace Sys2Proof.Tests

open Sys2Proof Sys2Proof.Machine

/-! ### Helpers -/

/-- The reset state with bytes at an address and pc there. -/
def start (pc : Byte) (bytes : List Byte) : State :=
  { State.reset with mem := Memory.writeBytes [] pc bytes, pc := pc }

/-- The state with a register set. -/
def withX (r : RegIdx) (v : Byte) (s : State) : State := writeReg r v s

/-- The outcome is a next state with the property. -/
def nextHas (o : Host.Outcome State Fault Refusal) (p : State → Bool) : Bool :=
  match o with
  | .next t => p t
  | _ => false

/-! ### WellFormed: every check refuses an ill-formed term -/

theorem test_wf_ldi : (Instr.ldi 8 0).wellFormed = false ∧ (Instr.ldi 7 8).wellFormed = true := by decide
theorem test_wf_prn : (Instr.prn 8).wellFormed = false := by decide
theorem test_wf_mul : (Instr.mul 8 0).wellFormed = false ∧ (Instr.mul 0 8).wellFormed = false := by decide
theorem test_wf_add : (Instr.add 255 0).wellFormed = false ∧ (Instr.add 0 255).wellFormed = false := by decide
theorem test_wf_cmp : (Instr.cmp 9 0).wellFormed = false ∧ (Instr.cmp 0 9).wellFormed = false := by decide
theorem test_wf_push : (Instr.push 8).wellFormed = false := by decide
theorem test_wf_pop : (Instr.pop 9).wellFormed = false := by decide
theorem test_wf_call : (Instr.call 10).wellFormed = false := by decide
theorem test_wf_jmp : (Instr.jmp 8).wellFormed = false := by decide
theorem test_wf_jne : (Instr.jne 8).wellFormed = false := by decide
theorem test_wf_jeq : (Instr.jeq 8).wellFormed = false := by decide

/-! ### Decoding: one word per constructor, and refused bytes -/

theorem test_decode_halt : decodeTableWord 8 0b00000001 = some .halt := by decide
theorem test_decode_ldi : decodeTableWord 24 0b11111111_00000011_10000010 = some (.ldi 3 0xFF) := by decide
theorem test_decode_prn : decodeTableWord 16 0b00000111_01000111 = some (.prn 7) := by decide
theorem test_decode_mul : decodeTableWord 24 0b00000001_00000010_10100010 = some (.mul 2 1) := by decide
theorem test_decode_add : decodeTableWord 24 0b00000111_00000100_10100000 = some (.add 4 7) := by decide
theorem test_decode_push : decodeTableWord 16 0b00000101_01000101 = some (.push 5) := by decide
theorem test_decode_pop : decodeTableWord 16 0b00000110_01000110 = some (.pop 6) := by decide
theorem test_decode_call : decodeTableWord 16 0b00000001_01010000 = some (.call 1) := by decide
theorem test_decode_ret : decodeTableWord 8 0b00010001 = some .ret := by decide
theorem test_decode_cmp : decodeTableWord 24 0b00000010_00000000_10100111 = some (.cmp 0 2) := by decide
theorem test_decode_jmp : decodeTableWord 16 0b00000011_01010100 = some (.jmp 3) := by decide
theorem test_decode_jne : decodeTableWord 16 0b00000010_01010110 = some (.jne 2) := by decide
theorem test_decode_jeq : decodeTableWord 16 0b00000100_01010101 = some (.jeq 4) := by decide
/-- A word shorter than the instruction: the operand bytes are zeros. -/
theorem test_decode_short_word : decodeTableWord 8 0x82 = some (.ldi 0 0) := by decide
/-- V-ILL-1 to V-ILL-12. -/
theorem test_illegal_bytes :
    ([0x00, 0x02, 0x03, 0x10, 0x51, 0x57, 0x65, 0x80, 0xA1, 0xA8, 0xC1, 0xFF] : List Nat).all
      (fun n => (decodeTableWord 24 (0x090900 + n)).isNone) = true := by decide
theorem test_missing_operand : (decode [0x82, 0x00]).toOption = none := by decide

/-! ### One step of each instruction -/

/-- V-HALT-2. -/
theorem test_halt_at_top : nextHas (step (start 0xFF [0x01])) (fun t => !t.run && t.pc == 0x00) = true := by decide
/-- V-HALT-3, the second request. -/
theorem test_step_after_halt :
    step { start 0x01 [0x82, 0x00, 0x05] with run := false } = .next { start 0x01 [0x82, 0x00, 0x05] with run := false } :=
  rfl
/-- V-LDI-4. -/
theorem test_ldi_wraps : nextHas (step (start 0xFE [0x82, 0x00, 0x2A])) (fun t => t.regs[0] == 0x2A && t.pc == 0x01)
    = true := by decide
/-- V-LDI-5. -/
theorem test_ldi_bad_register : nextHas (step (start 0x00 [0x82, 0x08, 0x01]))
    (fun t => t.fault == some ⟨.operandAddress, 0x00, 0x82⟩ && t.pc == 0x00 && t.run) = true := by decide
/-- V-PRN-2. -/
theorem test_prn_sp : nextHas (step (start 0x00 [0x47, 0x07])) (fun t => t.out == [244] && t.pc == 0x02) = true := by
  decide
/-- V-PRN-4. -/
theorem test_prn_bad_register : nextHas (step (start 0x00 [0x47, 0x08]))
    (fun t => t.fault == some ⟨.operandAddress, 0x00, 0x47⟩ && t.out == []) = true := by decide
/-- V-ADD-3. -/
theorem test_add_wraps : nextHas (step (withX 0 200 (withX 1 100 (start 0x00 [0xA0, 0x00, 0x01]))))
    (fun t => t.regs[0] == 44 && t.regs[1] == 100 && t.fl == 0) = true := by decide
/-- V-ADD-4. -/
theorem test_add_doubles : nextHas (step (withX 2 0x80 (start 0x00 [0xA0, 0x02, 0x02])))
    (fun t => t.regs[2] == 0x00 && t.pc == 0x03) = true := by decide
/-- V-MUL-1. -/
theorem test_mul_wraps : nextHas (step (withX 0 200 (withX 1 200 (start 0x00 [0xA2, 0x00, 0x01]))))
    (fun t => t.regs[0] == 64 && t.regs[1] == 200) = true := by decide
/-- V-MUL-6. -/
theorem test_mul_exact : nextHas (step (withX 0 0x0F (withX 1 0x11 (start 0x00 [0xA2, 0x00, 0x01]))))
    (fun t => t.regs[0] == 0xFF && t.pc == 0x03) = true := by decide
/-- V-CMP-3: the old E bit is cleared. -/
theorem test_cmp_less : nextHas (step { withX 0 5 (withX 1 6 (start 0x00 [0xA7, 0x00, 0x01])) with fl := 0b001 })
    (fun t => t.fl == 0b100 && t.pc == 0x03) = true := by decide
/-- V-CMP-7: unsigned. -/
theorem test_cmp_unsigned : nextHas (step (withX 0 0x80 (withX 1 0x7F (start 0x00 [0xA7, 0x00, 0x01]))))
    (fun t => t.fl == 0b010) = true := by decide
/-- V-PUSH-2. -/
theorem test_push_sp : nextHas (step (start 0x00 [0x45, 0x07]))
    (fun t => t.regs[7] == 0xF3 && readMem t 0xF3 == 0xF3 && t.pc == 0x02) = true := by decide
/-- V-PUSH-4: the store lands on the PUSH's own opcode byte. -/
theorem test_push_own_opcode : nextHas (step (withX 1 0x01 (withX 7 0x21 (start 0x20 [0x45, 0x01]))))
    (fun t => t.regs[7] == 0x20 && readMem t 0x20 == 0x01 && readMem t 0x21 == 0x01 && t.pc == 0x22) = true := by decide
/-- V-POP-2. -/
theorem test_pop_sp : nextHas (step (withX 7 0xF3 (writeMem 0xF3 0x20 (start 0x00 [0x46, 0x07]))))
    (fun t => t.regs[7] == 0x21 && t.pc == 0x02) = true := by decide
/-- V-POP-3. -/
theorem test_pop_wraps : nextHas (step (withX 7 0xFF (writeMem 0xFF 0x5A (start 0x00 [0x46, 0x00]))))
    (fun t => t.regs[0] == 0x5A && t.regs[7] == 0x00 && readMem t 0xFF == 0x5A) = true := by decide
/-- V-CALL-2. -/
theorem test_call_return_address_wraps : nextHas (step (withX 1 0x40 (start 0xFE [0x50, 0x01])))
    (fun t => t.regs[7] == 0xF3 && readMem t 0xF3 == 0x00 && t.pc == 0x40) = true := by decide
/-- V-CALL-4. -/
theorem test_call_sp : nextHas (step (start 0x10 [0x50, 0x07]))
    (fun t => t.regs[7] == 0xF3 && readMem t 0xF3 == 0x12 && t.pc == 0xF3) = true := by decide
/-- V-RET-1. -/
theorem test_ret : nextHas (step (withX 7 0xF3 (writeMem 0xF3 0x08 (start 0x0E [0x11]))))
    (fun t => t.pc == 0x08 && t.regs[7] == 0xF4 && readMem t 0xF3 == 0x08) = true := by decide
/-- V-RET-2: nothing was called. -/
theorem test_ret_unmatched : nextHas (step (start 0x0E [0x11]))
    (fun t => t.pc == 0x00 && t.regs[7] == 0xF5 && t.fault == none) = true := by decide
/-- V-JMP-3. -/
theorem test_jmp_sp : nextHas (step (start 0x00 [0x54, 0x07])) (fun t => t.pc == 0xF4) = true := by decide
/-- V-JMP-4. -/
theorem test_jmp_bad_register : nextHas (step (start 0x00 [0x54, 0x08]))
    (fun t => t.fault == some ⟨.operandAddress, 0x00, 0x54⟩ && t.pc == 0x00) = true := by decide
/-- V-JEQ-1. -/
theorem test_jeq_taken : nextHas (step { withX 2 0x30 (start 0x10 [0x55, 0x02]) with fl := 0b001 })
    (fun t => t.pc == 0x30 && t.fl == 0b001) = true := by decide
/-- V-JEQ-6: not taken, still checked. -/
theorem test_jeq_bad_register : nextHas (step (start 0x10 [0x55, 0x08]))
    (fun t => t.fault == some ⟨.operandAddress, 0x10, 0x55⟩ && t.pc == 0x10) = true := by decide
/-- V-JNE-3. -/
theorem test_jne_not_taken : nextHas (step { withX 3 0x0C (start 0x14 [0x56, 0x03]) with fl := 0b001 })
    (fun t => t.pc == 0x16) = true := by decide
/-- V-JNE-4. -/
theorem test_jne_before_cmp : nextHas (step (withX 3 0x0C (start 0x14 [0x56, 0x03]))) (fun t => t.pc == 0x0C) = true := by
  decide
/-- V-ILL-9, with bytes after it that would be bad register operands. -/
theorem test_illegal_opcode : nextHas (step { withX 0 0x11 (start 0x22 [0xA1, 0x09, 0x09]) with fl := 0b010 })
    (fun t => t.fault == some ⟨.illegalInstruction, 0x22, 0xA1⟩ && t.pc == 0x22 && t.regs[0] == 0x11 && t.fl == 0b010
      && t.run && t.out == []) = true := by decide

/-! ### Fetching a placed word, and the host's moves -/

theorem test_with_fetch_word_runs : nextHas (step (State.reset.withFetchWord 24 0x2A0382))
    (fun t => t.regs[3] == 0x2A && t.pc == 0x03) = true := by decide
/-- V-LOAD-1, V-LOAD-5. -/
theorem test_load_keeps_tail :
    nextHas (hostLoad [0x82, 0x00, 0x05, 0x47, 0x00, 0x01] State.reset) (fun s => nextHas (hostLoad [0x01] s)
      (fun t => t.mem == [(0, 0x01), (2, 0x05), (3, 0x47), (5, 0x01)] && t.pc == 0)) = true := by decide
/-- 60_exceptions.md R170, code 3, at the longest image and one byte more. -/
theorem test_capacity_error : hostLoad (List.replicate 257 0x01) State.reset = .fault .capacityError ∧
    loadErr (hostLoad (List.replicate 256 0x01) State.reset) = false ∧ loadErr (.fault .capacityError) = true ∧
    Fault.capacityError.number = 3 :=
  ⟨if_neg (by rw [List.length_replicate]; decide),
    congrArg loadErr (if_pos (by rw [List.length_replicate])), rfl, rfl⟩
/-- V-HOST-1. -/
theorem test_host_write_read : hostRead 0x10 (hostWrite 0x10 0x1AB State.reset) = 0xAB := by decide
/-- V-RUN-1. -/
theorem test_run_when_halted : hostRun 5 { State.reset with run := false } = .next { State.reset with run := false } := rfl
/-- 41_system_and_output.md R102: the text of OUT = [1, 72, 255, 0]. -/
theorem test_render : renderOut [1, 72, 255, 0] = ['1', '\n', '7', '2', '\n', '2', '5', '5', '\n', '0', '\n'] := by decide
/-- 40_core_blocks_and_step.md R71, R91: the ports and the end after V-PRN-4. -/
theorem test_ports_after_fault : nextHas (step (start 0x00 [0x47, 0x08])) (fun t => (observe t).faulted &&
    (observe t).running && (observe t).faultCode == 2 && (observe t).faultAddr == some 0 &&
    (observe t).faultOpcode == some 0x47 && t.runEnd == .faulted ⟨.operandAddress, 0x00, 0x47⟩) = true := by decide
/-- The blocks on V-POP-2. -/
theorem test_blocks_pop_sp :
    (stepBlocks 0xFF 0xFF (withX 7 0xF3 (writeMem 0xF3 0x20 (start 0x00 [0x46, 0x07])))).regs[7] = 0x21 := by decide

/-! ### Witnesses: the hypotheses of each statement can be met -/

theorem witness_StepKeepsInvariant : ∃ s t, s.inv = true ∧ step s = .next t :=
  ⟨start 0x00 [0x45, 0x01], _, by decide, rfl⟩
theorem witness_ReachableStatesSatisfyInvariant :
    ∃ s, Reachable s ∧ s.macroState = .faulted :=
  ⟨_, .move .stepRequest .reset rfl, rfl⟩
theorem witness_OpcodeMapIsComplete : (0x00 : Byte) ∉
    ([0x01, 0x11, 0x45, 0x46, 0x47, 0x50, 0x54, 0x55, 0x56, 0x82, 0xA0, 0xA2, 0xA7] : List Byte) := by decide
theorem witness_DecodedBytesAreTheEncoding : decode [0x47, 0x09, 0x00] = .ok (.prn 9, [0x00]) := rfl
theorem witness_PcAdvancesUnlessBitFourIsSet : ∃ ir ops t, encode (.ldi 7 0) = ir :: ops ∧
    (Instr.ldi 7 0).wellFormed = true ∧ ir.getLsbD 4 = false ∧ exec (.ldi 7 0) State.reset = .next t :=
  ⟨_, _, _, rfl, rfl, rfl, rfl⟩
theorem witness_StepRunsTheDecodedInstruction : ∃ s i rest, s.run = true ∧ s.fault = none ∧
    decode [readMem s s.pc, readMem s (s.pc + 1), readMem s (s.pc + 2)] = .ok (i, rest) ∧ i.wellFormed = true :=
  ⟨start 0xFF [0x47, 0x07], .prn 7, [0x00], rfl, rfl, rfl, rfl⟩
theorem witness_IllegalOpcodeTakesTheFault : ∃ s : State, s.run = true ∧ s.fault = none ∧ readMem s s.pc ∉
    ([0x01, 0x11, 0x45, 0x46, 0x47, 0x50, 0x54, 0x55, 0x56, 0x82, 0xA0, 0xA2, 0xA7] : List Byte) :=
  ⟨start 0x22 [0xA1, 0x09, 0x09], rfl, rfl, by decide⟩
theorem witness_HaltedAndFaultedAreTerminal : ∃ s : State, s.macroState ≠ .running ∧
    HostMove.stepRequest.apply s = .next s ∧ HostMove.reset.apply s = .next State.reset :=
  ⟨{ State.reset with run := false }, by decide, rfl, rfl⟩
theorem witness_FaultedIsTerminal : ∃ s : State, Reachable s ∧ s.macroState = .faulted ∧
    HostMove.stepRequest.apply s = .next s ∧ HostMove.reset.apply s = .next State.reset :=
  ⟨_, .move .stepRequest .reset rfl, rfl, rfl, rfl⟩
/-- A load, a host_write and a step, each from a state with the invariant. -/
theorem witness_HostMovesKeepInvariant : State.reset.inv = true ∧
    nextHas ((HostMove.load [0x45, 0x00, 0x06]).apply State.reset) (fun s => s.inv &&
      nextHas ((HostMove.write 0xFF 0x100).apply s) (fun t => t.inv &&
        nextHas (HostMove.stepRequest.apply t) (fun u => u.regs[7] == 0xF3))) = true := by decide
theorem witness_FaultingStepChangesOnlyTheLatch : ∃ s t : State, s.fault = none ∧ step s = .next t ∧ t.fault ≠ none :=
  ⟨start 0x00 [0xA0, 0x07, 0x08], _, rfl, rfl, by decide⟩
theorem witness_IllegalRegisterOperandTakesTheFault :
    (Instr.add 7 8).wellFormed = false ∧ (Instr.add 7 7).wellFormed = true := by decide
theorem witness_PushOverItsOwnBytesStillRuns : ∃ (s : State) (r : Byte), r.toNat < 8 ∧ s.run = true ∧ s.fault = none ∧
    Memory.wf s.mem = true ∧ readMem s s.pc = 0x45 ∧ readMem s (s.pc + 1) = r ∧ r ≠ 7 ∧ s.regs[7] - 1 = s.pc :=
  ⟨withX 7 0x21 (start 0x20 [0x45, 0x06]), 6, by decide, rfl, rfl, by decide, by decide, by decide, by decide, by decide⟩
theorem witness_PushOverItsOwnOperand : ∃ (s : State) (r : Byte), r.toNat < 8 ∧ s.run = true ∧ s.fault = none ∧
    Memory.wf s.mem = true ∧ readMem s s.pc = 0x45 ∧ readMem s (s.pc + 1) = r ∧ r ≠ 7 ∧ s.regs[7] - 1 = s.pc + 1 :=
  ⟨withX 7 0x22 (start 0x20 [0x45, 0x06]), 6, by decide, rfl, rfl, by decide, by decide, by decide, by decide, by decide⟩
theorem witness_HaltStopsTheCore : ∃ t u, exec .halt State.reset = .next t ∧ State.reset.fault = none ∧
    exec .ret State.reset = .next u ∧ Instr.ret ≠ .halt := ⟨_, _, rfl, rfl, rfl, by decide⟩
/-- The register operand clauses of PRN, LDI, ADD, MUL, CMP, PUSH, POP, CALL, JMP, JEQ and JNE at their boundary. -/
theorem witness_register_operand_clauses :
    (7 : Byte).toNat < 8 ∧ 8 ≤ (8 : Byte).toNat ∧ ¬ 8 ≤ (7 : Byte).toNat ∧ ¬ (8 : Byte).toNat < 8 := by decide
theorem witness_OutputIsAppendOnly : ∃ t u v, exec (.prn 7) State.reset = .next t ∧ (7 : Byte).toNat < 8 ∧
    exec (.prn 8) State.reset = .next u ∧ (∀ r : Byte, r.toNat < 8 → Instr.prn 8 ≠ .prn r) ∧
    HostMove.stepRequest.apply State.reset = .next v ∧ HostMove.stepRequest ≠ .reset :=
  ⟨_, _, _, rfl, by decide, rfl, by rintro r h ⟨⟩; exact absurd h (by decide), rfl, by decide⟩
theorem witness_FlagsWrittenByCmpReadByJumps : (∃ t, exec (.ldi 7 1) State.reset = .next t) ∧
    (∀ a b, Instr.ldi 7 1 ≠ .cmp a b) ∧ (0b110 : FlagBits).getLsbD 0 = State.reset.fl.getLsbD 0 :=
  ⟨⟨_, rfl⟩, by intro a b; exact Instr.noConfusion, by decide⟩
theorem witness_PushThenPopRestores : ∃ (r : Byte) (s t u : State), r.toNat < 8 ∧ r ≠ 7 ∧ Memory.wf s.mem = true ∧
    exec (.push r) s = .next t ∧ u.regs[7] = t.regs[7] ∧ readMem u t.regs[7] = readMem t t.regs[7] ∧
    u.regs[6] ≠ t.regs[6] :=
  ⟨6, start 0x00 [0x45, 0x06], _, withX 6 0x63 (withX 7 0xF3 State.reset), by decide, by decide, by decide, rfl,
    by decide, by decide, by decide⟩
theorem witness_StackPointerTracksPushesAndPops : ∃ (is : List Instr) (t : State),
    execAll is State.reset = .next t ∧ (∀ i ∈ is, i.wellFormed = true ∧ writesSpExplicitly i = false) ∧
    State.reset.regs[7] = 0xF4 ∧ (is.map popCount).sum ≤ (is.map pushCount).sum ∧
    (is.map pushCount).sum ≤ (is.map popCount).sum + 244 :=
  ⟨[.push 7, .call 6, .pop 0], _, rfl, by decide, by decide, by decide, by decide⟩
theorem witness_JneJumpsWhenNotEqual : ∃ t, (7 : Byte).toNat < 8 ∧ (0 : Byte).toNat < 8 ∧
    exec (.cmp 7 0) State.reset = .next t := ⟨_, by decide, by decide, rfl⟩
theorem witness_RetPopsPc : ∃ (r : Byte) (s t u : State), r.toNat < 8 ∧ Memory.wf s.mem = true ∧
    exec (.call r) s = .next t ∧ u.regs[7] = t.regs[7] ∧ readMem u t.regs[7] = readMem t t.regs[7] :=
  ⟨7, State.reset, _, withX 7 0xF3 (writeMem 0xF3 0x02 State.reset), by decide, by decide, rfl, by decide, by decide⟩
theorem witness_RegistersChangeOnlyAsTabled : ∃ t, exec (.pop 6) State.reset = .next t ∧
    (5 : RegIdx).val ∉ writtenRegs (.pop 6) := ⟨_, rfl, by decide⟩
theorem witness_UnreadRegisterDoesNotMatter :
    (7 : RegIdx).val ∉ readRegs (.jeq 7) 0b000 ∧ (0 : RegIdx).val ∉ readRegs (.push 7) 0b000 := by decide
theorem witness_MemoryChangesOnlyAtTheStoreAddress : ∃ t, exec (.push 7) State.reset = .next t ∧
    storeAddr (.push 7) State.reset = some 0xF3 ∧ storeAddr (.push 7) State.reset ≠ some 0xF4 ∧
    storeAddr (.push 8) State.reset = none ∧ Memory.wf State.reset.mem = true := ⟨_, rfl, by decide, by decide, by decide, rfl⟩
theorem witness_UnreadCellDoesNotMatter : ∃ (s : State) (i : Instr) (rest : List Byte) (c : Byte),
    s.run = true ∧ s.fault = none ∧ Memory.wf s.mem = true ∧
    decode [readMem s s.pc, readMem s (s.pc + 1), readMem s (s.pc + 2)] = .ok (i, rest) ∧
    (∀ k : Nat, k < (encode i).length → c ≠ s.pc + BitVec.ofNat 8 k) ∧
    (i.opcode = .pop ∨ i.opcode = .ret → c ≠ s.regs[7]) :=
  ⟨start 0x00 [0x46, 0x01], .pop 1, [0x00], 0x02, rfl, rfl, by decide, rfl, by decide, by decide⟩
theorem witness_CanonicalMemoriesThatReadAlikeAreEqual : ∃ m n : Memory, m ≠ [] ∧ Memory.wf m = true ∧
    Memory.wf n = true ∧ ∀ a : Byte, Memory.read m a = Memory.read n a :=
  ⟨Memory.write (Memory.write [] 5 1) 3 2, Memory.write (Memory.write (Memory.write (Memory.write [] 3 2) 4 9) 5 1) 4 0,
    by decide, by decide, by decide, fun _ => rfl⟩
theorem witness_LoadWritesTheImageOrRefuses : Memory.wf State.reset.mem = true ∧
    (List.replicate 256 (0x01 : Byte)).length ≤ 256 ∧ 256 < (List.replicate 257 (0x01 : Byte)).length :=
  ⟨rfl, by rw [List.length_replicate], by rw [List.length_replicate]; decide⟩
theorem witness_HostWriteThenReadReturnsTheByte : Memory.wf State.reset.mem = true ∧ (0x11 : Byte) ≠ 0x10 := by decide
theorem witness_RunIsRepeatedSteps : ∃ t, hostRun 1 State.reset = .next t ∧ t.macroState ≠ .running :=
  ⟨_, rfl, by decide⟩
theorem witness_PortsShowTheState : ∃ f, { State.reset with fault := some ⟨.illegalInstruction, 0, 0⟩ }.fault = some f ∧
    State.reset.fault = none := ⟨_, rfl, rfl⟩

end Sys2Proof.Tests
end

/-! PROOF. The state: what an instruction does as one total function, and the statements of 10_state.md. -/

namespace Sys2Proof.Machine

/-! ### Exec as one total equation

`exec` is told once: an instruction with an illegal register operand takes the fault, every other has its effect. -/

/-- What an instruction does when its register operands are legal. An operand byte stands for its register through the
three-bit port `regPort`, so the function is total; `exec_eq` ties it to `exec`. -/
def effect (i : Instr) (s : State) : State :=
  match i with
  | .halt => advance .halt (clearRun s)
  | .ldi r imm8 => advance .ldi (writeReg (regPort r) imm8 s)
  | .prn r => advance .prn (emit (readReg s (regPort r)) s)
  | .mul a b => advance .mul (writeReg (regPort a) (aluMul (readReg s (regPort a)) (readReg s (regPort b))) s)
  | .add a b => advance .add (writeReg (regPort a) (aluAdd (readReg s (regPort a)) (readReg s (regPort b))) s)
  | .push r => advance .push (storeAtSp (readReg (decSp s) (regPort r)) (decSp s))
  | .pop r => advance .pop (incSp (writeReg (regPort r) (loadAtSp s) s))
  | .call r => setPc (readReg (decSp s) (regPort r)) (storeAtSp (nextPc .call s) (decSp s))
  | .ret => incSp (setPc (loadAtSp s) s)
  | .cmp a b => advance .cmp (setFl (compareFlags (readReg s (regPort a)) (readReg s (regPort b))) s)
  | .jmp r => setPc (readReg s (regPort r)) s
  | .jne r => if flagE s.fl then advance .jne s else setPc (readReg s (regPort r)) s
  | .jeq r => if flagE s.fl then setPc (readReg s (regPort r)) s else advance .jeq s

/-- The port of a legal operand byte is the register of its number. -/
theorem regPort_val {b : Byte} (h : regOperandOk b = true) : (regPort b).val = b.toNat :=
  Nat.mod_eq_of_lt (of_decide_eq_true h)

/-- The operand check names the register at the port exactly when the operand byte is legal. -/
theorem regIndex_eq (b : Byte) : regIndex b = if regOperandOk b then some (regPort b) else none := by
  by_cases h : b.toNat < 8
  · simp [regIndex, regOperandOk, regPort, h, Nat.mod_eq_of_lt h]
  · simp [regIndex, regOperandOk, h]

/-- One register operand, as a choice between the effect and the fault. -/
theorem withReg_eq (o : Opcode) (b : Byte) (s : State) (k : RegIdx → State) :
    withReg o b s k =
      .next (if regOperandOk b then k (regPort b) else raiseFault .operandAddress o.byte s) := by
  rw [withReg, regIndex_eq]
  cases regOperandOk b <;> rfl

/-- Two register operands, as a choice between the effect and the fault. -/
theorem withRegs_eq (o : Opcode) (b1 b2 : Byte) (s : State) (k : RegIdx → RegIdx → State) :
    withRegs o b1 b2 s k =
      .next (if regOperandOk b1 && regOperandOk b2 then k (regPort b1) (regPort b2)
        else raiseFault .operandAddress o.byte s) := by
  rw [withRegs, regIndex_eq, regIndex_eq]
  cases regOperandOk b1 <;> cases regOperandOk b2 <;> rfl

/-- All of `exec`: the effect with legal register operands, and otherwise OperandAddressError with nothing else
changed. -/
theorem exec_eq (i : Instr) (s : State) :
    exec i s = .next (if i.wellFormed then effect i s else raiseFault .operandAddress i.opcode.byte s) := by
  cases i with
  | halt | ret => rfl
  | ldi | prn | push | pop | call | jmp | jne | jeq => exact withReg_eq ..
  | mul | add | cmp => exact withRegs_eq ..

theorem exec_of_wellFormed {i : Instr} (h : i.wellFormed = true) (s : State) : exec i s = .next (effect i s) := by
  rw [exec_eq, if_pos h]

theorem exec_of_not_wellFormed {i : Instr} (h : i.wellFormed = false) (s : State) :
    exec i s = .next (raiseFault .operandAddress i.opcode.byte s) := by
  rw [exec_eq, h]; rfl

/-- All that an instruction can do. -/
theorem exec_cases {i : Instr} {s t : State} (h : exec i s = .next t) :
    (i.wellFormed = true ∧ t = effect i s) ∨
      (i.wellFormed = false ∧ t = raiseFault .operandAddress i.opcode.byte s) := by
  cases hw : i.wellFormed with
  | true => exact .inl ⟨rfl, (Host.Outcome.next.inj ((exec_of_wellFormed hw s).symm.trans h)).symm⟩
  | false => exact .inr ⟨rfl, (Host.Outcome.next.inj ((exec_of_not_wellFormed hw s).symm.trans h)).symm⟩

/-! ### What the effect of an instruction leaves in each field -/

/-- A branch sets pc and nothing else, whichever way it goes. -/
theorem effect_jne (r : Byte) (s : State) : effect (.jne r) s =
    setPc (if flagE s.fl then nextPc .jne s else readReg s (regPort r)) s := by
  cases h : flagE s.fl <;> simp [effect, h, advance]

/-- A branch sets pc and nothing else, whichever way it goes. -/
theorem effect_jeq (r : Byte) (s : State) : effect (.jeq r) s =
    setPc (if flagE s.fl then readReg s (regPort r) else nextPc .jeq s) s := by
  cases h : flagE s.fl <;> simp [effect, h, advance]

@[simp] theorem effect_fault (i : Instr) (s : State) : (effect i s).fault = s.fault := by
  cases i with
  | jne => rw [effect_jne, setPc_fault]
  | jeq => rw [effect_jeq, setPc_fault]
  | _ => rfl

/-- An instruction stores through the memory's write or leaves the memory alone, so it stays canonical. -/
theorem effect_mem_wf (i : Instr) {s : State} (h : Memory.wf s.mem = true) : Memory.wf (effect i s).mem = true := by
  cases i with
  | push | call => exact Memory.wf_write h ..
  | jne => rwa [effect_jne]
  | jeq => rwa [effect_jeq]
  | _ => exact h

/-! ### The flags -/

/-- Only CMP writes the flags. -/
theorem effect_fl_of_ne_cmp {i : Instr} (h : i.opcode ≠ .cmp) (s : State) : (effect i s).fl = s.fl := by
  cases i with
  | cmp => exact absurd rfl h
  | jne => rw [effect_jne, setPc_fl]
  | jeq => rw [effect_jeq, setPc_fl]
  | _ => rfl

theorem flagE_compareFlags (a b : Byte) : flagE (compareFlags a b) = true ↔ a = b := by
  rw [← BitVec.toNat_inj, compareFlags]
  split_ifs <;> simp [flagE, *]

theorem flagG_compareFlags (a b : Byte) : flagG (compareFlags a b) = true ↔ a.toNat > b.toNat := by
  rw [compareFlags]
  split_ifs <;> simp [flagG, *]

theorem flagL_compareFlags (a b : Byte) : flagL (compareFlags a b) = true ↔ a.toNat < b.toNat := by
  rw [compareFlags]
  split_ifs <;> simp [flagL] <;> omega

theorem legalFlags_compareFlags (a b : Byte) : legalFlags (compareFlags a b) = true := by
  rw [compareFlags]
  split_ifs <;> rfl

theorem effect_legalFlags (i : Instr) {s : State} (h : legalFlags s.fl = true) :
    legalFlags (effect i s).fl = true := by
  cases i with
  | cmp => exact legalFlags_compareFlags ..
  | _ => rwa [effect_fl_of_ne_cmp (by nofun)]

/-- With another FL that agrees on E where E is read, the effect is the same but for FL. -/
theorem effect_setFl {i : Instr} {s : State} {f : FlagBits}
    (h : i.opcode = .jeq ∨ i.opcode = .jne → flagE f = flagE s.fl) :
    effect i (setFl f s) = setFl (if i.opcode = .cmp then (effect i s).fl else f) (effect i s) := by
  cases i with
  | jne => rw [effect_jne, effect_jne, setFl_fl, h (.inr rfl)]; rfl
  | jeq => rw [effect_jeq, effect_jeq, setFl_fl, h (.inl rfl)]; rfl
  | _ => rfl

/-- Settles O24: the two cases of the operand check, and the three bits of the comparison. -/
theorem cmpSetsOneFlag : Obligations.CmpSetsOneFlag := by
  unfold Obligations.CmpSetsOneFlag
  intro a b s
  refine ⟨rfl, fun ha hb => ⟨compareFlags s.regs[a.toNat] s.regs[b.toNat], ?_, flagE_compareFlags ..,
    flagG_compareFlags .., flagL_compareFlags ..⟩, withRegs_of_ge .cmp s _⟩
  refine (withRegs_of_lt .cmp s _ ha hb).trans (congrArg _ ?_)
  rw [advance, nextPc_of_nops_two rfl]
  rfl

/-- Settles O25: the flags of an effect, and the effect under other flags. -/
theorem flagsWrittenByCmpReadByJumps : Obligations.FlagsWrittenByCmpReadByJumps := by
  unfold Obligations.FlagsWrittenByCmpReadByJumps
  constructor
  · intro i s t h hc
    obtain ⟨-, rfl⟩ | ⟨-, rfl⟩ := exec_cases h
    · refine effect_fl_of_ne_cmp (fun ho => ?_) s
      cases i with
      | cmp a b => exact hc a b rfl
      | _ => cases ho
    · rfl
  · intro i s f hE
    refine ⟨_, exec_eq i s, ?_⟩
    change exec i (setFl f s) = _
    cases hw : i.wellFormed with
    | false =>
      rw [exec_of_not_wellFormed hw]
      simp [raiseFault, setFl]
    | true =>
      have hE' : i.opcode = .jeq ∨ i.opcode = .jne → flagE f = flagE s.fl := by
        intro ho
        apply hE
        cases i <;> simp_all [Instr.opcode]
      rw [exec_of_wellFormed hw, effect_setFl hE']
      simp [setFl]

/-! ### The invariant -/

theorem inv_iff (s : State) :
    s.inv = true ↔ Memory.wf s.mem = true ∧ legalFlags s.fl = true ∧ faultLegal s = true := by
  simp [State.inv, and_assoc]

theorem faultLegal_of_fault_none {s : State} (h : s.fault = none) : faultLegal s = true := by
  simp [faultLegal, h]

/-- A fault record stands only while RUN is 1. -/
theorem run_of_faultLegal {s : State} (h : faultLegal s = true) (hf : s.fault ≠ none) : s.run = true := by
  obtain ⟨f, hf⟩ := Option.ne_none_iff_exists'.mp hf
  simp only [faultLegal, hf, Bool.and_eq_true] at h
  exact h.1.1

theorem faultLegal_illegalInstruction {s : State} {ir : Byte} (hr : s.run = true) (ho : Opcode.ofByte ir = none) :
    faultLegal (raiseFault .illegalInstruction ir s) = true := by
  simp [faultLegal, hr, ho]

theorem faultLegal_operandAddress {s : State} {o : Opcode} (hr : s.run = true) (hn : 1 ≤ o.nops) :
    faultLegal (raiseFault .operandAddress o.byte s) = true := by
  simp [faultLegal, hr, hn]

theorem one_le_nops_iff (o : Opcode) : 1 ≤ o.nops ↔ o ≠ .halt ∧ o ≠ .ret := by
  cases o <;> decide

/-- Only an instruction with an operand can have an illegal one. -/
theorem one_le_nops_of_not_wellFormed {i : Instr} (h : i.wellFormed = false) : 1 ≤ i.opcode.nops := by
  cases i with
  | halt | ret => cases h
  | _ => exact (one_le_nops_iff _).mpr ⟨nofun, nofun⟩

theorem inv_raiseFault {s : State} {c : FaultCode} {ir : Byte} (h : s.inv = true)
    (hf : faultLegal (raiseFault c ir s) = true) : (raiseFault c ir s).inv = true := by
  obtain ⟨hm, hfl, -⟩ := (inv_iff s).mp h
  exact (inv_iff _).mpr ⟨hm, hfl, hf⟩

/-- Every instruction keeps the invariant in Running, where a step executes it. -/
theorem exec_keeps_inv {i : Instr} {s t : State} (h : s.inv = true) (hr : s.isRunning = true)
    (he : exec i s = .next t) : t.inv = true := by
  obtain ⟨hrun, hfault⟩ := (isRunning_iff s).mp hr
  obtain ⟨-, rfl⟩ | ⟨hw, rfl⟩ := exec_cases he
  · obtain ⟨hm, hfl, -⟩ := (inv_iff s).mp h
    exact (inv_iff _).mpr ⟨effect_mem_wf i hm, effect_legalFlags i hfl,
      faultLegal_of_fault_none (by rw [effect_fault, hfault])⟩
  · exact inv_raiseFault h (faultLegal_operandAddress hrun (one_le_nops_of_not_wellFormed hw))

theorem step_keeps_inv {s t : State} (h : s.inv = true) (hs : step s = .next t) : t.inv = true := by
  obtain ⟨-, he⟩ | ⟨hr, ho, he⟩ | ⟨hr, i, -, -, he⟩ := step_cases s
  · rw [he] at hs
    cases hs
    exact h
  · rw [he] at hs
    cases hs
    exact inv_raiseFault h (faultLegal_illegalInstruction ((isRunning_iff s).mp hr).1 ho)
  · exact exec_keeps_inv h hr (he.symm.trans hs)

/-- Another canonical memory keeps the invariant. -/
theorem inv_with_mem {s : State} {m : Memory} (h : s.inv = true) (hm : Memory.wf m = true) :
    { s with mem := m }.inv = true := by
  obtain ⟨-, hfl, hf⟩ := (inv_iff s).mp h
  exact (inv_iff _).mpr ⟨hm, hfl, hf⟩

theorem inv_mem {s : State} (h : s.inv = true) : Memory.wf s.mem = true := ((inv_iff s).mp h).1

/-- An accepted image changes the memory only. -/
theorem hostLoad_cases {image : List Byte} {s t : State} (h : hostLoad image s = .next t) :
    image.length ≤ Config.maxImage ∧ t = { s with mem := Memory.writeBytes s.mem Config.loadBase image } := by
  unfold hostLoad at h
  split at h
  · next hl => exact ⟨hl, (Host.Outcome.next.inj h).symm⟩
  · cases h

theorem HostMove.apply_keeps_inv {m : HostMove} {s t : State} (h : s.inv = true) (ha : m.apply s = .next t) :
    t.inv = true := by
  cases m with
  | reset => cases ha; rfl
  | load image =>
    obtain ⟨-, rfl⟩ := hostLoad_cases ha
    exact inv_with_mem h (Memory.wf_writeBytes (inv_mem h) ..)
  | write a v => cases ha; exact inv_with_mem h (Memory.wf_write (inv_mem h) ..)
  | stepRequest => exact step_keeps_inv h ha

theorem Reachable.inv {s : State} (h : Reachable s) : s.inv = true := by
  induction h with
  | reset => rfl
  | move m _ ha ih => exact HostMove.apply_keeps_inv ih ha

/-- Settles O3: each of the three things a step can do keeps the invariant. -/
theorem stepKeepsInvariant : Obligations.StepKeepsInvariant := by
  unfold Obligations.StepKeepsInvariant
  exact fun _ _ => step_keeps_inv

/-! ### Running, Halted and Faulted -/

theorem macroState_running_iff (s : State) : s.macroState = .running ↔ s.run = true ∧ s.fault = none := by
  unfold State.macroState
  cases s.fault <;> cases s.run <;> simp

theorem macroState_halted_iff (s : State) : s.macroState = .halted ↔ s.run = false ∧ s.fault = none := by
  unfold State.macroState
  cases s.fault <;> cases s.run <;> simp

theorem macroState_faulted_iff (s : State) : s.macroState = .faulted ↔ s.fault ≠ none := by
  unfold State.macroState
  cases s.fault <;> cases s.run <;> simp

/-- Outside Running a step request is ignored. -/
theorem step_of_not_running {s : State} (h : s.macroState ≠ .running) : step s = .next s := by
  have hr : ¬ s.isRunning = true := fun hr => h ((macroState_running_iff s).mpr ((isRunning_iff s).mp hr))
  rw [step, if_neg hr]

/-- Halted and Faulted end by reset alone. -/
theorem HostMove.macroState_apply {m : HostMove} {s t : State} (h : s.macroState ≠ .running)
    (ha : m.apply s = .next t) : if m = .reset then t.macroState = .running else t.macroState = s.macroState := by
  cases m with
  | reset => cases ha; rfl
  | load image =>
    obtain ⟨-, rfl⟩ := hostLoad_cases ha
    rfl
  | write a v => cases ha; rfl
  | stepRequest =>
    cases (step_of_not_running h).symm.trans ha
    rfl

/-- Settles O13: the last clause by the invariant of the reachable states. -/
theorem haltedAndFaultedAreTerminal : Obligations.HaltedAndFaultedAreTerminal := by
  unfold Obligations.HaltedAndFaultedAreTerminal
  refine ⟨fun s => ⟨macroState_running_iff s, macroState_halted_iff s, macroState_faulted_iff s⟩,
    fun s => step_of_not_running, fun m s t => HostMove.macroState_apply, fun s hs hf => ?_⟩
  obtain ⟨-, -, hlegal⟩ := (inv_iff s).mp hs.inv
  exact run_of_faultLegal hlegal ((macroState_faulted_iff s).mp hf)

/-! ### The output channel -/

/-- The values an instruction with legal operands appends to OUT. -/
def printed (i : Instr) (s : State) : List Byte :=
  match i with
  | .prn r => [readReg s (regPort r)]
  | _ => []

theorem printed_of_ne_prn {i : Instr} (h : i.opcode ≠ .prn) (s : State) : printed i s = [] := by
  cases i with
  | prn => exact absurd rfl h
  | _ => rfl

/-- Whatever OUT holds, an instruction appends the same values to it, and nothing else depends on OUT. -/
theorem effect_with_out (i : Instr) (s : State) (o : List Byte) :
    effect i { s with out := o } = { effect i s with out := o ++ printed i s } := by
  cases i with
  | prn => rfl
  | jne => rw [effect_jne, effect_jne, printed_of_ne_prn (by nofun), List.append_nil]; rfl
  | jeq => rw [effect_jeq, effect_jeq, printed_of_ne_prn (by nofun), List.append_nil]; rfl
  | _ => rw [printed_of_ne_prn (by nofun), List.append_nil]; rfl

@[simp] theorem effect_out (i : Instr) (s : State) : (effect i s).out = s.out ++ printed i s :=
  congrArg State.out (effect_with_out i s s.out)

theorem exec_appends_out (i : Instr) (s : State) (o : List Byte) : ∃ (t : State) (new : List Byte),
    exec i s = .next t ∧ t.out = s.out ++ new ∧ exec i { s with out := o } = .next { t with out := o ++ new } := by
  cases hw : i.wellFormed with
  | true => exact ⟨_, printed i s, exec_of_wellFormed hw s, effect_out i s,
      (exec_of_wellFormed hw _).trans (congrArg _ (effect_with_out i s o))⟩
  | false => exact ⟨_, [], exec_of_not_wellFormed hw s, (List.append_nil _).symm,
      by rw [exec_of_not_wellFormed hw, List.append_nil]; rfl⟩

theorem exec_out_of_not_prn {i : Instr} {s t : State} (h : exec i s = .next t)
    (hi : ∀ r : Byte, r.toNat < 8 → i ≠ .prn r) : t.out = s.out := by
  obtain ⟨hw, rfl⟩ | ⟨-, rfl⟩ := exec_cases h
  · cases i with
    | prn r => exact absurd rfl (hi r (of_decide_eq_true hw))
    | _ => rw [effect_out, printed_of_ne_prn (by nofun), List.append_nil]
  · rfl

theorem step_out_prefix {s t : State} (h : step s = .next t) : s.out <+: t.out := by
  obtain ⟨-, he⟩ | ⟨-, -, he⟩ | ⟨-, i, -, -, he⟩ := step_cases s <;> rw [he] at h
  · cases h
    exact List.prefix_rfl
  · cases h
    exact List.prefix_rfl
  · obtain ⟨u, new, hu, hout, -⟩ := exec_appends_out i s []
    cases hu.symm.trans h
    exact ⟨new, hout.symm⟩

theorem HostMove.out_prefix {m : HostMove} {s t : State} (ha : m.apply s = .next t) (hm : m ≠ .reset) :
    s.out <+: t.out := by
  cases m with
  | reset => exact absurd rfl hm
  | load image =>
    obtain ⟨-, rfl⟩ := hostLoad_cases ha
    exact List.prefix_rfl
  | write a v =>
    cases ha
    exact List.prefix_rfl
  | stepRequest => exact step_out_prefix ha

/-- Settles O20, from what an instruction and a host move append to OUT. -/
theorem outputIsAppendOnly : Obligations.OutputIsAppendOnly := by
  unfold Obligations.OutputIsAppendOnly
  exact ⟨rfl, fun r hr s => ⟨_, withReg_of_lt .prn s _ hr, rfl⟩, fun _ _ _ => exec_out_of_not_prn,
    exec_appends_out, fun _ _ _ => HostMove.out_prefix⟩

/-! ### The registers -/

theorem regPort_ne {b : Byte} {r : RegIdx} (hb : regOperandOk b = true) (h : r.val ≠ b.toNat) :
    regPort b ≠ r := fun e => h ((congrArg Fin.val e).symm.trans (regPort_val hb))

theorem regPorts_ne {a b : Byte} {r : RegIdx} (hw : (regOperandOk a && regOperandOk b) = true)
    (h : r.val ∉ [a.toNat, b.toNat]) : regPort a ≠ r ∧ regPort b ≠ r := by
  obtain ⟨ha, hb⟩ := Bool.and_eq_true_iff.mp hw
  obtain ⟨hra, hrb⟩ := List.ne_and_not_mem_of_not_mem_cons h
  exact ⟨regPort_ne ha hra, regPort_ne hb (List.mem_singleton.not.mp hrb)⟩

theorem spIndex_ne {r : RegIdx} (h : r.val ≠ 7) : Config.spIndex ≠ r :=
  fun e => h (congrArg Fin.val e).symm

/-- An instruction with legal operands leaves every register outside its row of the register table. -/
theorem effect_regs_of_not_written {i : Instr} (hw : i.wellFormed = true) (s : State) {r : RegIdx}
    (hr : r.val ∉ writtenRegs i) : (effect i s).regs[r] = s.regs[r] := by
  cases i with
  | ldi a imm8 => exact readReg_writeReg_ne _ _ (regPort_ne hw (List.mem_singleton.not.mp hr)).symm
  | mul a b | add a b =>
    obtain ⟨ha, -⟩ := Bool.and_eq_true_iff.mp hw
    exact readReg_writeReg_ne _ _ (regPort_ne ha (List.mem_singleton.not.mp hr)).symm
  | pop a =>
    obtain ⟨ha, h7⟩ := List.ne_and_not_mem_of_not_mem_cons hr
    exact (readReg_writeReg_ne _ _ (spIndex_ne (List.mem_singleton.not.mp h7)).symm).trans
      (readReg_writeReg_ne _ _ (regPort_ne hw ha).symm)
  | push | call | ret => exact readReg_writeReg_ne _ _ (spIndex_ne (List.mem_singleton.not.mp hr)).symm
  | jne => rw [effect_jne, setPc_regs]
  | jeq => rw [effect_jeq, setPc_regs]
  | _ => rfl

/-- Settles O35: a fault writes no register, and the effect only those of the table. -/
theorem registersChangeOnlyAsTabled : Obligations.RegistersChangeOnlyAsTabled := by
  unfold Obligations.RegistersChangeOnlyAsTabled
  intro i s t r h hr
  obtain ⟨hw, rfl⟩ | ⟨-, rfl⟩ := exec_cases h
  · exact effect_regs_of_not_written hw s hr
  · rfl

/-! ### Another value in a register -/

theorem writeReg_comm {r q : RegIdx} (h : q ≠ r) (v w : Byte) (s : State) :
    writeReg q w (writeReg r v s) = writeReg r v (writeReg q w s) := by
  have hne : r.val ≠ q.val := fun e => h (Fin.ext e.symm)
  simp [writeReg, Vector.set_comm v w hne]

/-- A second write of a register hides the first. -/
theorem writeReg_writeReg_self (r : RegIdx) (v w : Byte) (s : State) :
    writeReg r w (writeReg r v s) = writeReg r w s := by
  simp [writeReg]

section
variable {r : RegIdx} (hr : Config.spIndex ≠ r) (v : Byte) (s : State)
include hr

theorem loadAtSp_writeReg : loadAtSp (writeReg r v s) = loadAtSp s :=
  congrArg (readMem s) (readReg_writeReg_ne v s hr)

theorem storeAtSp_writeReg (b : Byte) : storeAtSp b (writeReg r v s) = writeReg r v (storeAtSp b s) :=
  congrArg (fun a => writeReg r v (writeMem a b s)) (readReg_writeReg_ne v s hr)

theorem decSp_writeReg : decSp (writeReg r v s) = writeReg r v (decSp s) := by
  rw [decSp, sp, readReg_writeReg_ne v s hr, writeReg_comm hr]
  rfl

theorem incSp_writeReg : incSp (writeReg r v s) = writeReg r v (incSp s) := by
  rw [incSp, sp, readReg_writeReg_ne v s hr, writeReg_comm hr]
  rfl

end

/-- A register that is neither read nor written passes through the instruction. -/
theorem effect_writeReg_of_not_written {i : Instr} {s : State} {r : RegIdx} (hw : i.wellFormed = true)
    (hread : r.val ∉ readRegs i s.fl) (hwrite : r.val ∉ writtenRegs i) (v : Byte) :
    effect i (writeReg r v s) = writeReg r v (effect i s) := by
  cases i with
  | halt => rfl
  | ldi a imm8 =>
    have ha := regPort_ne hw (List.mem_singleton.not.mp hwrite)
    rw [effect, writeReg_comm ha]
    rfl
  | prn a | jmp a =>
    have ha := regPort_ne hw (List.mem_singleton.not.mp hread)
    rw [effect, readReg_writeReg_ne v s ha]
    rfl
  | cmp a b =>
    obtain ⟨ha, hb⟩ := regPorts_ne hw hread
    rw [effect, readReg_writeReg_ne v s ha, readReg_writeReg_ne v s hb]
    rfl
  | mul a b | add a b =>
    obtain ⟨ha, hb⟩ := regPorts_ne hw hread
    rw [effect, readReg_writeReg_ne v s ha, readReg_writeReg_ne v s hb, writeReg_comm ha]
    rfl
  | push a | call a =>
    obtain ⟨hr7, hra⟩ := List.ne_and_not_mem_of_not_mem_cons hread
    have h7 := spIndex_ne hr7
    have ha := regPort_ne hw (List.mem_singleton.not.mp hra)
    rw [effect, decSp_writeReg h7, readReg_writeReg_ne v _ ha, storeAtSp_writeReg h7]
    rfl
  | pop a =>
    obtain ⟨hra, hr7⟩ := List.ne_and_not_mem_of_not_mem_cons hwrite
    have h7 := spIndex_ne (List.mem_singleton.not.mp hr7)
    rw [effect, loadAtSp_writeReg h7, writeReg_comm (regPort_ne hw hra), incSp_writeReg h7]
    rfl
  | ret =>
    have h7 := spIndex_ne (List.mem_singleton.not.mp hread)
    rw [effect, loadAtSp_writeReg h7]
    exact incSp_writeReg h7 v (setPc (loadAtSp s) s)
  | jne a =>
    rw [effect_jne, effect_jne, writeReg_fl]
    cases hE : flagE s.fl with
    | true => rfl
    | false =>
      rw [readRegs, hE] at hread
      rw [readReg_writeReg_ne v s (regPort_ne hw (List.mem_singleton.not.mp hread))]
      rfl
  | jeq a =>
    rw [effect_jeq, effect_jeq, writeReg_fl]
    cases hE : flagE s.fl with
    | false => rfl
    | true =>
      rw [readRegs, hE] at hread
      rw [readReg_writeReg_ne v s (regPort_ne hw (List.mem_singleton.not.mp hread))]
      rfl

/-- A register that is written and not read (by LDI, or as the destination of a POP) loses its old value. -/
theorem effect_writeReg_of_written {i : Instr} {s : State} {r : RegIdx} (hw : i.wellFormed = true)
    (hread : r.val ∉ readRegs i s.fl) (hwrite : r.val ∈ writtenRegs i) (v : Byte) :
    effect i (writeReg r v s) = effect i s := by
  cases i with
  | ldi a imm8 =>
    have ha : regPort a = r := Fin.ext ((regPort_val hw).trans (List.mem_singleton.mp hwrite).symm)
    rw [effect, effect, ha, writeReg_writeReg_self]
  | pop a =>
    have h7 := List.mem_singleton.not.mp hread
    have hra := (List.mem_cons.mp hwrite).resolve_right (fun h => h7 (List.mem_singleton.mp h))
    have ha : regPort a = r := Fin.ext ((regPort_val hw).trans hra.symm)
    rw [effect, effect, loadAtSp_writeReg (spIndex_ne h7), ha, writeReg_writeReg_self]
  | mul | add | push | call =>
    exact absurd (List.mem_cons.mpr (.inl (List.mem_singleton.mp hwrite))) hread
  | ret => exact absurd hwrite hread
  | halt | prn | cmp | jmp | jne | jeq => cases hwrite

/-- Settles O36, by whether the register is written: it then loses the value, and otherwise passes it through. -/
theorem unreadRegisterDoesNotMatter : Obligations.UnreadRegisterDoesNotMatter := by
  unfold Obligations.UnreadRegisterDoesNotMatter
  intro i s r v hr
  change ∃ t, _ ∧ exec i (writeReg r v s) = _
  cases hw : i.wellFormed with
  | false => exact ⟨_, exec_of_not_wellFormed hw s, exec_of_not_wellFormed hw _⟩
  | true =>
    refine ⟨_, exec_of_wellFormed hw s, ?_⟩
    rw [exec_of_wellFormed hw]
    by_cases hm : r.val ∈ writtenRegs i
    · rw [effect_writeReg_of_written hw hr hm, if_pos ⟨rfl, hm⟩]
    · rw [effect_writeReg_of_not_written hw hr hm, if_neg fun h => hm h.2]
      rfl

/-! ### Canonical memories -/

theorem Memory.wfFrom_cons (lo k : Nat) (v : Byte) (rest : Memory) : Memory.wfFrom lo ((k, v) :: rest) = true ↔
    lo ≤ k ∧ k < Config.memCells ∧ v ≠ Config.memReset ∧ Memory.wfFrom (k + 1) rest = true := by
  simp only [Memory.wfFrom, Bool.and_eq_true, decide_eq_true_eq, and_assoc]

@[simp] theorem Memory.lookup_cons_self (k : Nat) (v : Byte) (rest : Memory) :
    Memory.lookup ((k, v) :: rest) k = v := if_pos rfl

theorem Memory.lookup_cons_ne {k a : Nat} (v : Byte) (rest : Memory) (h : k ≠ a) :
    Memory.lookup ((k, v) :: rest) a = Memory.lookup rest a := if_neg h

/-- At the first address of a canonical list, every list that begins later reads otherwise. -/
theorem Memory.lookup_head_ne {lo k : Nat} {v : Byte} {rest n : Memory}
    (hm : Memory.wfFrom lo ((k, v) :: rest) = true) (hn : Memory.wfFrom (k + 1) n = true) :
    Memory.lookup ((k, v) :: rest) k ≠ Memory.lookup n k := by
  obtain ⟨-, -, hv, -⟩ := (Memory.wfFrom_cons ..).mp hm
  rwa [Memory.lookup_cons_self, Memory.lookup_of_lt hn (Nat.lt_succ_self k)]

/-- The address of the first cell in which two canonical lists differ would tell them apart by reading. -/
theorem Memory.eq_of_lookup_eq {lo : Nat} {m n : Memory} (hm : Memory.wfFrom lo m = true)
    (hn : Memory.wfFrom lo n = true) (h : ∀ a, a < Config.memCells → Memory.lookup m a = Memory.lookup n a) :
    m = n := by
  induction m generalizing lo n with
  | nil =>
    cases n with
    | nil => rfl
    | cons c n =>
      obtain ⟨-, hk, -, -⟩ := (Memory.wfFrom_cons ..).mp hn
      exact absurd (h c.1 hk).symm (Memory.lookup_head_ne hn rfl)
  | cons c m ih =>
    obtain ⟨k, v⟩ := c
    obtain ⟨-, hk, hv, hm'⟩ := (Memory.wfFrom_cons ..).mp hm
    cases n with
    | nil => exact absurd (h k hk) (Memory.lookup_head_ne hm rfl)
    | cons d n =>
      obtain ⟨l, w⟩ := d
      obtain ⟨-, hl, hw, hn'⟩ := (Memory.wfFrom_cons ..).mp hn
      obtain hlt | rfl | hgt := Nat.lt_trichotomy k l
      · exact absurd (h k hk) (Memory.lookup_head_ne hm ((Memory.wfFrom_cons ..).mpr ⟨hlt, hl, hw, hn'⟩))
      · have hvw : v = w := by simpa using h k hk
        subst hvw
        refine congrArg _ (ih hm' hn' fun a ha => ?_)
        by_cases hka : k = a
        · subst hka
          rw [Memory.lookup_of_lt hm' (Nat.lt_succ_self k), Memory.lookup_of_lt hn' (Nat.lt_succ_self k)]
        · simpa only [Memory.lookup_cons_ne _ _ hka] using h a ha
      · exact absurd (h l hl).symm (Memory.lookup_head_ne hn ((Memory.wfFrom_cons ..).mpr ⟨hgt, hk, hv, hm'⟩))

/-- Settles O39, by induction on the sorted lists. -/
theorem canonicalMemoriesThatReadAlikeAreEqual : Obligations.CanonicalMemoriesThatReadAlikeAreEqual := by
  unfold Obligations.CanonicalMemoriesThatReadAlikeAreEqual
  intro m n hm hn h
  refine Memory.eq_of_lookup_eq hm hn fun a ha => ?_
  have := h (BitVec.ofNat 8 a)
  rwa [Memory.read, Memory.read, BitVec.toNat_ofNat, Nat.mod_eq_of_lt ha] at this

/-! ### The blocks -/

/-- Under the control signals of an opcode, the one update of the blocks is the effect of the instruction. -/
theorem executeBlocks_eq_effect (o : Opcode) (op1 op2 : Byte) (s : State) :
    executeBlocks o op1 op2 s = effect (o.instr op1 op2) s := by
  cases o with
  | jne => rw [Opcode.instr, effect_jne, nextPc_of_nops_one rfl]; rfl
  | jeq => rw [Opcode.instr, effect_jeq, nextPc_of_nops_one rfl]; rfl
  | call => rw [Opcode.instr, effect, nextPc_of_nops_one rfl]; rfl
  | _ => rfl

/-- The decoder's `operand_fault` is raised exactly for an illegal register operand. -/
theorem operandFault_eq (o : Opcode) (op1 op2 : Byte) :
    operandFault (controlSignals o) op1 op2 = !(o.instr op1 op2).wellFormed := by
  have h (b : Byte) : decide (7 < b.toNat) = !regOperandOk b := by
    rw [regOperandOk, ← decide_not, decide_eq_decide, Nat.not_lt, Nat.succ_le_iff]
  cases o <;> simp [operandFault, controlSignals, h, Opcode.instr, Instr.wellFormed]

/-- On any operand bytes, the checked update of the blocks is the instruction's execution. -/
theorem exec_instr_eq_blocks (o : Opcode) (op1 op2 : Byte) (s : State) :
    exec (o.instr op1 op2) s = .next (if operandFault (controlSignals o) op1 op2
      then raiseFault .operandAddress o.byte s else executeBlocks o op1 op2 s) := by
  rw [exec_eq, operandFault_eq, executeBlocks_eq_effect, Opcode.opcode_instr]
  cases (o.instr op1 op2).wellFormed <;> rfl

/-- What the fetch unit loads for a legal opcode, whatever the latches held: the operands the instruction has. -/
theorem decode_fetchBytes_of_latches {s : State} {o : Opcode} (h : Opcode.ofByte (fetchOpcode s) = some o)
    (op1Latch op2Latch : Byte) :
    decode (fetchBytes s) = .ok (o.instr (if 1 ≤ o.nops then readMem s (s.pc + 1) else op1Latch)
      (if o.nops = 2 then readMem s (s.pc + 2) else op2Latch), []) := by
  cases o <;> simp only [fetchBytes, h, decode] <;> rfl

theorem stepBlocks_of_not_running {s : State} (hr : s.isRunning = false) (op1Latch op2Latch : Byte) :
    stepBlocks op1Latch op2Latch s = s :=
  if_neg (Bool.eq_false_iff.mp hr)

theorem stepBlocks_of_illegal {s : State} (hr : s.isRunning = true) (h : Opcode.ofByte (fetchOpcode s) = none)
    (op1Latch op2Latch : Byte) :
    stepBlocks op1Latch op2Latch s = raiseFault .illegalInstruction (fetchOpcode s) s := by
  rw [fetchOpcode_eq] at h
  rw [stepBlocks, ← State.isRunning, if_pos hr]
  simp only [h]
  rfl

/-- The operands the fetch unit hands to the blocks are those the instruction rules decode. -/
theorem stepBlocks_of_legal {s : State} {o : Opcode} (hr : s.isRunning = true)
    (h : Opcode.ofByte (fetchOpcode s) = some o) (op1Latch op2Latch : Byte) :
    .next (stepBlocks op1Latch op2Latch s) =
      exec (o.instr (if 1 ≤ o.nops then readMem s (s.pc + 1) else op1Latch)
        (if o.nops = 2 then readMem s (s.pc + 2) else op2Latch)) s := by
  have hb := Opcode.byte_of_ofByte h
  rw [fetchOpcode_eq] at h hb
  rw [stepBlocks, ← State.isRunning, if_pos hr, exec_instr_eq_blocks]
  simp only [← hb, Opcode.ofByte_byte]
  rfl

/-- Settles O44: outside Running, for an illegal opcode, and for each opcode, whose one update is its effect. -/
theorem blocksRefineTheInstructionRules : Obligations.BlocksRefineTheInstructionRules := by
  unfold Obligations.BlocksRefineTheInstructionRules
  intro op1Latch op2Latch s
  cases hr : s.isRunning with
  | false => rw [stepBlocks_of_not_running hr, step, hr]; rfl
  | true =>
    cases ho : Opcode.ofByte (fetchOpcode s) with
    | none => rw [stepBlocks_of_illegal hr ho, step, if_pos hr, decode_fetchBytes_of_illegal ho]
    | some o =>
      rw [stepBlocks_of_legal hr ho, step, if_pos hr, decode_fetchBytes_of_latches ho op1Latch op2Latch]

end Sys2Proof.Machine

/-! PROOF. The memory: what a write, an image and an instruction leave in each cell, and the statements of
20_memory.md. -/

namespace Sys2Proof.Machine

/-! ### The cell an instruction stores to -/

theorem storeAddr_of_not_wellFormed {i : Instr} (h : i.wellFormed = false) (s : State) : storeAddr i s = none := by
  cases i with
  | push | call => exact if_neg (Bool.eq_false_iff.mp h)
  | _ => rfl

/-- What an instruction with legal operands does to the memory, whatever the memory holds: nothing, or one write, whose
address and byte do not depend on it. -/
theorem effect_mem_cases {i : Instr} (hw : i.wellFormed = true) (s : State) :
    (storeAddr i s = none ∧ ∀ m, (effect i { s with mem := m }).mem = m) ∨
      ∃ a b, storeAddr i s = some a ∧ ∀ m, (effect i { s with mem := m }).mem = Memory.write m a b := by
  cases i with
  | push r => exact .inr ⟨_, readReg (decSp s) (regPort r), if_pos hw, fun _ => rfl⟩
  | call => exact .inr ⟨_, nextPc .call s, if_pos hw, fun _ => rfl⟩
  | jne => exact .inl ⟨rfl, fun m => by rw [effect_jne, setPc_mem]⟩
  | jeq => exact .inl ⟨rfl, fun m => by rw [effect_jeq, setPc_mem]⟩
  | _ => exact .inl ⟨rfl, fun _ => rfl⟩

/-- Every cell but the one an instruction stores to reads as before. -/
theorem readMem_effect_of_ne {i : Instr} (hw : i.wellFormed = true) {s : State} {a : Byte}
    (h : storeAddr i s ≠ some a) : readMem (effect i s) a = readMem s a := by
  obtain ⟨-, hm⟩ | ⟨d, b, hd, hm⟩ := effect_mem_cases hw s
  · exact congrArg (Memory.read · a) (hm s.mem)
  · have hne : a ≠ d := fun e => h (e ▸ hd)
    exact (congrArg (Memory.read · a) (hm s.mem)).trans (Memory.read_write_ne s.mem b hne)

/-- Settles O37: a fault stores nothing, and the effect of PUSH and CALL is one write at the decremented pointer. -/
theorem memoryChangesOnlyAtTheStoreAddress : Obligations.MemoryChangesOnlyAtTheStoreAddress := by
  unfold Obligations.MemoryChangesOnlyAtTheStoreAddress
  intro i s t h
  obtain ⟨hw, rfl⟩ | ⟨hw, rfl⟩ := exec_cases h
  · refine ⟨fun a => readMem_effect_of_ne hw, fun a ha hm => ⟨?_, ?_⟩⟩
    · rintro r hr rfl
      obtain rfl := Option.some.inj ((if_pos hw).symm.trans ha)
      refine (Memory.read_write_self hm _ _).trans ?_
      simp only [readReg_eq, Fin.getElem_fin, regPort_val hw]
    · rintro r rfl
      obtain rfl := Option.some.inj ((if_pos hw).symm.trans ha)
      exact (Memory.read_write_self hm _ _).trans (nextPc_of_nops_one rfl s)
  · refine ⟨fun _ _ => rfl, fun a ha => ?_⟩
    rw [storeAddr_of_not_wellFormed hw] at ha
    cases ha

/-! ### The bytes a step fetches -/

theorem length_encode (i : Instr) : (encode i).length = i.opcode.nops + 1 := by
  cases i <;> simp [encode, Instr.opcode, Opcode.nops, nopsField, Opcode.byte]

/-- A legal opcode's bytes are fetched from consecutive addresses. -/
theorem fetchBytes_eq_map {s : State} {o : Opcode} (h : Opcode.ofByte (fetchOpcode s) = some o) :
    fetchBytes s = (List.range (o.nops + 1)).map fun k => readMem s (s.pc + BitVec.ofNat 8 k) := by
  have h0 : fetchOpcode s = readMem s (s.pc + BitVec.ofNat 8 0) := congrArg (readMem s) (BitVec.add_zero s.pc).symm
  rw [fetchBytes, h]
  cases o <;> exact congrArg (· :: _) h0

/-- A decoder that is given three bytes at pc reads what the fetch unit reads, which takes only as many as the opcode
calls for. -/
theorem decode_fetchBytes_of_decode {s : State} {i : Instr} {rest : List Byte}
    (h : decode [readMem s s.pc, readMem s (s.pc + 1), readMem s (s.pc + 2)] = .ok (i, rest)) :
    Opcode.ofByte (fetchOpcode s) = some i.opcode ∧ decode (fetchBytes s) = .ok (i, []) := by
  rw [decode, ← fetchOpcode] at h
  cases ho : Opcode.ofByte (fetchOpcode s) with
  | none => rw [ho] at h; cases h
  | some o =>
    rw [decode_fetchBytes_of_latches ho 0 0]
    rw [ho] at h
    cases o <;> cases h <;> exact ⟨rfl, rfl⟩

theorem step_of_decode_fetchBytes {s : State} {i : Instr} {rest : List Byte} (hr : s.isRunning = true)
    (h : decode (fetchBytes s) = .ok (i, rest)) : step s = exec i s := by
  rw [step, if_pos hr, h]

/-- In Running, a step executes the instruction whose bytes stand at pc. -/
theorem step_of_decode {s : State} {i : Instr} {rest : List Byte} (hr : s.isRunning = true)
    (h : decode [readMem s s.pc, readMem s (s.pc + 1), readMem s (s.pc + 2)] = .ok (i, rest)) : step s = exec i s :=
  step_of_decode_fetchBytes hr (decode_fetchBytes_of_decode h).2

/-! ### A PUSH over its own bytes -/

/-- The register of a legal operand byte other than 7 outlives the decrement of the stack pointer. -/
theorem readReg_decSp_of_ne {r : Byte} (hr : r.toNat < 8) (h7 : r ≠ 7) (s : State) :
    readReg (decSp s) (regPort r) = s.regs[r.toNat] := by
  have hv : (regPort r).val = r.toNat := Nat.mod_eq_of_lt hr
  have hne : regPort r ≠ Config.spIndex := fun e => h7 (BitVec.eq_of_toNat_eq (hv.symm.trans (congrArg Fin.val e)))
  rw [decSp, readReg_writeReg_ne _ s hne]
  simp only [readReg_eq, Fin.getElem_fin, hv]

/-- Settles O17: the bytes are fetched before the store, so the step is the execution of the PUSH wherever it stores. -/
theorem pushOverItsOwnBytesStillRuns : Obligations.PushOverItsOwnBytesStillRuns := by
  unfold Obligations.PushOverItsOwnBytesStillRuns
  intro s r hr hrun hfault hm hop harg h7 _
  have hd : decode [readMem s s.pc, readMem s (s.pc + 1), readMem s (s.pc + 2)] =
      .ok (.push r, [readMem s (s.pc + 2)]) := by
    rw [hop, harg]; rfl
  have hw : (Instr.push r).wellFormed = true := decide_eq_true hr
  refine ⟨effect (.push r) s, (step_of_decode ((isRunning_iff s).mpr ⟨hrun, hfault⟩) hd).trans
    (exec_of_wellFormed hw s), nextPc_of_nops_one rfl s, readReg_writeReg_self 7 _ s, ?_⟩
  have hsp : sp (decSp s) = s.regs[7] - 1 := readReg_writeReg_self 7 _ s
  change Memory.read (Memory.write s.mem (sp (decSp s)) (readReg (decSp s) (regPort r))) _ = _
  rw [hsp, Memory.read_write_self hm, readReg_decSp_of_ne hr h7]

/-! ### Another byte in a cell -/

/-- A read after a write, at any address. -/
theorem Memory.read_write {m : Memory} (hm : Memory.wf m = true) (a b v : Byte) :
    Memory.read (Memory.write m a v) b = if b = a then v else Memory.read m b := by
  split_ifs with h
  · rw [h, Memory.read_write_self hm]
  · exact Memory.read_write_ne m v h

/-- A cell that is not fetched does not change what is fetched. -/
theorem fetchBytes_writeMem {s : State} {o : Opcode} {c : Byte} (h : Opcode.ofByte (fetchOpcode s) = some o)
    (hc : ∀ k, k < o.nops + 1 → c ≠ s.pc + BitVec.ofNat 8 k) (v : Byte) :
    fetchBytes (writeMem c v s) = fetchBytes s := by
  have hread : ∀ k, k < o.nops + 1 →
      readMem (writeMem c v s) (s.pc + BitVec.ofNat 8 k) = readMem s (s.pc + BitVec.ofNat 8 k) :=
    fun k hk => Memory.read_write_ne s.mem v (hc k hk).symm
  have h' : Opcode.ofByte (fetchOpcode (writeMem c v s)) = some o := by
    have h0 := hread 0 (Nat.succ_pos _)
    rw [BitVec.add_zero] at h0
    rw [← h]
    exact congrArg Opcode.ofByte h0
  rw [fetchBytes_eq_map h, fetchBytes_eq_map h']
  exact List.map_congr_left fun k hk => hread k (List.mem_range.mp hk)

theorem loadAtSp_writeMem {s : State} {c : Byte} (h : c ≠ s.regs[7]) (v : Byte) :
    loadAtSp (writeMem c v s) = loadAtSp s :=
  Memory.read_write_ne s.mem v h.symm

/-- A cell that is not popped changes nothing outside the memory. -/
theorem effect_writeMem {i : Instr} {s : State} {c : Byte} (h : i.opcode = .pop ∨ i.opcode = .ret → c ≠ s.regs[7])
    (v : Byte) :
    effect i (writeMem c v s) = { effect i s with mem := (effect i (writeMem c v s)).mem } := by
  cases i with
  | pop => simp only [effect, loadAtSp_writeMem (h (.inl rfl))]; rfl
  | ret => simp only [effect, loadAtSp_writeMem (h (.inr rfl))]; rfl
  | jne => rw [effect_jne, effect_jne]; rfl
  | jeq => rw [effect_jeq, effect_jeq]; rfl
  | _ => rfl

/-- A byte put in a cell before an instruction stays there unless the instruction stores to that cell. -/
theorem readMem_effect_writeMem {i : Instr} (hw : i.wellFormed = true) {s : State} (hm : Memory.wf s.mem = true)
    (c v a : Byte) : readMem (effect i (writeMem c v s)) a =
      if a = c ∧ storeAddr i s ≠ some c then v else readMem (effect i s) a := by
  rw [readMem_eq, readMem_eq]
  obtain ⟨hn, hmem⟩ | ⟨d, b, hd, hmem⟩ := effect_mem_cases hw s
  · have ht : (effect i s).mem = s.mem := hmem s.mem
    have hu : (effect i (writeMem c v s)).mem = Memory.write s.mem c v := hmem _
    rw [ht, hu, Memory.read_write hm, hn]
    exact if_congr (and_iff_left nofun).symm rfl rfl
  · have ht : (effect i s).mem = Memory.write s.mem d b := hmem s.mem
    have hu : (effect i (writeMem c v s)).mem = Memory.write (Memory.write s.mem c v) d b := hmem _
    rw [ht, hu, hd, Memory.read_write (Memory.wf_write hm c v), Memory.read_write hm, Memory.read_write hm]
    by_cases had : a = d
    · have hstored : ¬(a = c ∧ some d ≠ some c) := fun ⟨hac, hne⟩ => hne (congrArg some (had.symm.trans hac))
      rw [if_pos had, if_pos had, if_neg hstored]
    · rw [if_neg had, if_neg had]
      exact if_congr (iff_self_and.mpr fun hac he => had (hac.trans (Option.some.inj he).symm)) rfl rfl

/-- Settles O38: the fetched bytes are the same, so both steps execute the same instruction. -/
theorem unreadCellDoesNotMatter : Obligations.UnreadCellDoesNotMatter := by
  unfold Obligations.UnreadCellDoesNotMatter
  intro s i rest c v hrun hfault hm hdec hc hpop
  have hr : s.isRunning = true := (isRunning_iff s).mpr ⟨hrun, hfault⟩
  obtain ⟨ho, hd⟩ := decode_fetchBytes_of_decode hdec
  have hd' : decode (fetchBytes (writeMem c v s)) = .ok (i, []) := by
    rw [fetchBytes_writeMem ho (length_encode i ▸ hc), hd]
  rw [step_of_decode_fetchBytes hr hd, step_of_decode_fetchBytes (s := writeMem c v s) hr hd']
  cases hw : i.wellFormed with
  | true =>
    exact ⟨_, _, exec_of_wellFormed hw s, exec_of_wellFormed hw _, effect_writeMem hpop v,
      readMem_effect_writeMem hw hm c v⟩
  | false =>
    refine ⟨_, _, exec_of_not_wellFormed hw s, exec_of_not_wellFormed hw _, rfl, fun a => ?_⟩
    rw [storeAddr_of_not_wellFormed hw]
    simpa using Memory.read_write hm c a v

/-! ### Loading an image -/

/-- The addresses of an image's tail, counted from the address after its first byte. -/
theorem add_ofNat_succ (a : Byte) (k : Nat) : a + BitVec.ofNat 8 (k + 1) = a + 1 + BitVec.ofNat 8 k := by
  rw [Nat.add_comm, BitVec.ofNat_add, ← BitVec.add_assoc]
  rfl

/-- Bytes written at consecutive addresses leave every other cell alone. -/
theorem Memory.read_writeBytes_of_outside (m : Memory) {a x : Byte} {bytes : List Byte}
    (h : ∀ k, k < bytes.length → x ≠ a + BitVec.ofNat 8 k) :
    Memory.read (Memory.writeBytes m a bytes) x = Memory.read m x := by
  induction bytes generalizing m a with
  | nil => rfl
  | cons b rest ih =>
    have hx : x ≠ a := by simpa using h 0 (Nat.succ_pos _)
    have hrest : ∀ k, k < rest.length → x ≠ a + 1 + BitVec.ofNat 8 k := fun k hk => by
      have := h (k + 1) (Nat.succ_lt_succ hk)
      rwa [add_ofNat_succ] at this
    exact (ih _ hrest).trans (Memory.read_write_ne m b hx)

/-- At most 256 bytes written at consecutive addresses do not run over one another, and each reads back. -/
theorem Memory.read_writeBytes_inside {m : Memory} (hm : Memory.wf m = true) (a : Byte) {bytes : List Byte}
    (hl : bytes.length ≤ Config.memCells) {i : Nat} (hi : i < bytes.length) :
    Memory.read (Memory.writeBytes m a bytes) (a + BitVec.ofNat 8 i) = bytes[i] := by
  induction bytes generalizing m a i with
  | nil => cases hi
  | cons b rest ih =>
    have hrest : rest.length < 256 := hl
    cases i with
    | zero =>
      have hout : ∀ k, k < rest.length → a ≠ a + 1 + BitVec.ofNat 8 k := fun k hk => by
        bv_omega
      rw [BitVec.add_zero]
      exact (Memory.read_writeBytes_of_outside _ hout).trans (Memory.read_write_self hm a b)
    | succ i =>
      rw [add_ofNat_succ]
      exact ih (Memory.wf_write hm a b) (a + 1) hrest.le (Nat.lt_of_succ_lt_succ hi)

theorem hostLoad_of_le {image : List Byte} (h : image.length ≤ Config.maxImage) (s : State) :
    hostLoad image s = .next { s with mem := Memory.writeBytes s.mem Config.loadBase image } := if_pos h

theorem hostLoad_of_gt {image : List Byte} (h : Config.maxImage < image.length) (s : State) :
    hostLoad image s = .fault .capacityError := if_neg (Nat.not_le.mpr h)

/-- `load_err` tells an image that is too long. -/
theorem loadErr_hostLoad (image : List Byte) (s : State) :
    loadErr (hostLoad image s) = true ↔ Config.maxImage < image.length := by
  obtain h | h := Nat.lt_or_ge Config.maxImage image.length
  · simp only [hostLoad_of_gt h, loadErr, h]
  · simp only [hostLoad_of_le h, loadErr, Nat.not_lt.mpr h, Bool.false_eq_true]

/-- Settles O40: the image's bytes by their addresses from `LOAD_BASE` on, and the refusal. -/
theorem loadWritesTheImageOrRefuses : Obligations.LoadWritesTheImageOrRefuses := by
  unfold Obligations.LoadWritesTheImageOrRefuses
  intro image s hm
  refine ⟨fun hl => ⟨_, hostLoad_of_le hl s, fun i hi => ?_, fun a ha => ?_⟩, (hostLoad_of_gt · s),
    loadErr_hostLoad image s⟩
  · simpa using Memory.read_writeBytes_inside hm Config.loadBase hl hi
  · refine Memory.read_writeBytes_of_outside s.mem fun k hk => ?_
    bv_omega

end Sys2Proof.Machine

/-! PROOF. The encoding: the decoder against the encoder, the opcode map, the field P, and the statements of
30_encoding.md. -/

namespace Sys2Proof

/-! ### Decoding an encoding -/

/-- The opcode byte of each encoding is a literal, on which the decoder computes. -/
@[simp] theorem decode_encode_append (i : Instr) (rest : List Byte) : decode (encode i ++ rest) = .ok (i, rest) := by
  cases i <;> rfl

theorem Opcode.nops_le_two (o : Opcode) : o.nops ≤ 2 := by
  cases o <;> decide

theorem length_encode_le_three (i : Instr) : (encode i).length ≤ 3 := by
  rw [Machine.length_encode]
  exact Nat.succ_le_succ i.opcode.nops_le_two

/-- Bytes read as one number, first byte least significant (20_memory.md R31). -/
def littleEndian (bytes : List Byte) : Nat := bytes.foldr (fun b n => b.toNat + 256 * n) 0

theorem littleEndian_cons (b : Byte) (bytes : List Byte) :
    littleEndian (b :: bytes) = b.toNat + 256 * littleEndian bytes := rfl

/-- Bytes read as one number fit in as many bits as they have. -/
theorem littleEndian_lt (bytes : List Byte) : littleEndian bytes < 2 ^ (8 * bytes.length) := by
  induction bytes with
  | nil => decide
  | cons b bytes ih =>
    rw [littleEndian_cons, List.length_cons, Nat.mul_succ, Nat.pow_add]
    omega

theorem ofNat_littleEndian (bytes : List Byte) : BitVec.ofNat 8 (littleEndian bytes) = bytes.headD 0 := by
  cases bytes with
  | nil => rfl
  | cons b bytes =>
    apply BitVec.eq_of_toNat_eq
    rw [littleEndian_cons, BitVec.toNat_ofNat, List.headD_cons]
    omega

theorem littleEndian_div (bytes : List Byte) : littleEndian bytes / 256 = littleEndian bytes.tail := by
  cases bytes with
  | nil => rfl
  | cons b bytes =>
    rw [littleEndian_cons, List.tail_cons]
    omega

/-- The word of at most three bytes is taken apart into those bytes, with zeros above the word's width. -/
theorem wordBytes_littleEndian {bytes : List Byte} (h : bytes.length ≤ 3) :
    wordBytes (8 * bytes.length) (littleEndian bytes) = bytes ++ List.replicate (3 - bytes.length) 0 := by
  have hdigits : wordBytes (8 * bytes.length) (littleEndian bytes) =
      [bytes.headD 0, bytes.tail.headD 0, bytes.tail.tail.headD 0] := by
    rw [wordBytes, Nat.mod_eq_of_lt (littleEndian_lt bytes), show 65536 = 256 * 256 from rfl,
      ← Nat.div_div_eq_div_mul]
    simp only [littleEndian_div, ofNat_littleEndian]
  rw [hdigits]
  match bytes, h with
  | [], _ | [_], _ | [_, _], _ | [_, _, _], _ => rfl

/-- Settles O8: the word of an encoding is that encoding again, with zeros after it. -/
theorem decodeOfEncodeGivesInstructionBack : Obligations.DecodeOfEncodeGivesInstructionBack := by
  unfold Obligations.DecodeOfEncodeGivesInstructionBack
  intro i rest
  refine ⟨decode_encode_append i rest, ?_⟩
  rw [← littleEndian, decodeTableWord, wordBytes_littleEndian (length_encode_le_three i), decode_encode_append]

/-! ### Encoding what was decoded -/

/-- An encoding is the opcode byte and as many operand bytes as that byte's bits 7:6 say. -/
theorem encode_instr (o : Opcode) (op1 op2 : Byte) :
    encode (o.instr op1 op2) = o.byte :: [op1, op2].take o.nops := by
  cases o <;> rfl

/-- Settles O9, by the operand count of the recognised opcode. -/
theorem decodedBytesAreTheEncoding : Obligations.DecodedBytesAreTheEncoding := by
  unfold Obligations.DecodedBytesAreTheEncoding
  intro bytes i rest h
  cases bytes with
  | nil => cases h
  | cons ir tail =>
    rw [decode] at h
    cases ho : Opcode.ofByte ir with
    | none => rw [ho] at h; cases h
    | some o =>
      obtain rfl := Opcode.byte_of_ofByte ho
      simp only [ho] at h
      -- The operand bytes taken for each count are those `encode_instr` keeps; a missing one is no answer.
      split at h <;> cases h <;> rw [encode_instr, ‹o.nops = _›] <;> rfl

/-! ### The opcode map -/

theorem decode_of_ofByte_none {ir : Byte} (h : Opcode.ofByte ir = none) (rest : List Byte) :
    decode (ir :: rest) = .error (.illegalOpcode ir) := by
  rw [decode, h]

/-- A byte that is no mnemonic's byte is not recognised. -/
theorem Opcode.ofByte_eq_none {ir : Byte} (h : ∀ o : Opcode, o.byte ≠ ir) : Opcode.ofByte ir = none :=
  Option.eq_none_iff_forall_ne_some.mpr fun o ho => h o (Opcode.byte_of_ofByte ho)

/-- The legal byte values are those of the mnemonics, each once. -/
theorem legal_bytes_perm : ((List.range 256).filter fun n => (Opcode.ofByte (BitVec.ofNat 8 n)).isSome).Perm
    (Opcode.all.map fun o => o.byte.toNat) := by
  refine (List.perm_ext_iff_of_nodup (List.nodup_range.filter _) (by decide)).mpr fun n => ?_
  simp only [List.mem_filter, List.mem_range, List.mem_map, Option.isSome_iff_exists]
  constructor
  · rintro ⟨hn, o, ho⟩
    exact ⟨o, o.mem_all, by rw [Opcode.byte_of_ofByte ho, BitVec.toNat_ofNat, Nat.mod_eq_of_lt hn]⟩
  · rintro ⟨o, -, rfl⟩
    exact ⟨o.byte.isLt, o, by rw [BitVec.ofNat_toNat, BitVec.setWidth_eq, Opcode.ofByte_byte]⟩

/-- Of the 256 byte values, all but the 13 legal ones. -/
theorem countP_illegal_bytes :
    ((List.range 256).countP fun n => (Opcode.ofByte (BitVec.ofNat 8 n)).isNone) = 243 := by
  have hlegal : ((List.range 256).countP fun n => (Opcode.ofByte (BitVec.ofNat 8 n)).isSome) = 13 :=
    List.countP_eq_length_filter.trans legal_bytes_perm.length_eq
  have hsum := List.length_eq_countP_add_countP (l := List.range 256)
    fun n => (Opcode.ofByte (BitVec.ofNat 8 n)).isSome
  simp only [List.length_range, hlegal, Bool.not_eq_true, Option.isSome_eq_false_iff, Bool.decide_eq_true] at hsum
  omega

/-- Settles O7: each row decodes as the encoding of its instruction, and a recognised byte stands in the list. -/
theorem opcodeMapIsComplete : Obligations.OpcodeMapIsComplete := by
  unfold Obligations.OpcodeMapIsComplete
  refine ⟨decode_encode_append .halt, fun r imm8 => decode_encode_append (.ldi r imm8),
    fun r => decode_encode_append (.prn r), fun a b => decode_encode_append (.mul a b),
    fun a b => decode_encode_append (.add a b), fun r => decode_encode_append (.push r),
    fun r => decode_encode_append (.pop r), fun r => decode_encode_append (.call r),
    decode_encode_append .ret, fun a b => decode_encode_append (.cmp a b),
    fun r => decode_encode_append (.jmp r), fun r => decode_encode_append (.jne r),
    fun r => decode_encode_append (.jeq r), fun ir rest hir => ?_, countP_illegal_bytes⟩
  refine decode_of_ofByte_none (Opcode.ofByte_eq_none ?_) rest
  rintro o rfl
  cases o <;> exact hir (by decide)

/-! ### The field P -/

theorem opcode_byte_of_encode {i : Instr} {ir : Byte} {ops : List Byte} (h : encode i = ir :: ops) :
    i.opcode.byte = ir :=
  Option.some.inj ((encode_head i).symm.trans (congrArg List.head? h))

/-- The five opcodes with `P = 1` (30_encoding.md R54). -/
theorem setsPcField_byte_iff (o : Opcode) : setsPcField o.byte = true ↔
    o = .call ∨ o = .ret ∨ o = .jmp ∨ o = .jeq ∨ o = .jne := by
  cases o <;> decide

/-- An instruction whose opcode byte has P clear takes the generic advance. -/
theorem Machine.effect_pc_of_not_setsPc {i : Instr} (h : ¬ setsPcField i.opcode.byte = true) (s : Machine.State) :
    (Machine.effect i s).pc = Machine.nextPc i.opcode s := by
  rw [setsPcField_byte_iff] at h
  cases i with
  | call | ret | jmp | jne | jeq => simp [Instr.opcode] at h
  | _ => rfl

/-- Settles O10, by the P bit of each opcode byte and the effect of the eight that have it clear. -/
theorem pcAdvancesUnlessBitFourIsSet : Obligations.PcAdvancesUnlessBitFourIsSet := by
  unfold Obligations.PcAdvancesUnlessBitFourIsSet
  intro i ir ops he
  obtain rfl := opcode_byte_of_encode he
  refine ⟨(setsPcField_byte_iff i.opcode).trans ?_, fun hw hp s t ht => ?_⟩
  · cases i <;> simp [Instr.opcode]
  · obtain rfl := Host.Outcome.next.inj ((Machine.exec_of_wellFormed hw s).symm.trans ht)
    exact Machine.effect_pc_of_not_setsPc (Bool.eq_false_iff.mp hp) s

end Sys2Proof

/-! PROOF. The step, the budgeted run and the host's moves: the statements of 40_core_blocks_and_step.md. -/

namespace Sys2Proof.Machine

/-! ### The host's moves -/

/-- Settles O45: a load and a host_write keep the memory canonical and touch nothing else, reset gives a fixed state
with the invariant, and a step request is the step. -/
theorem hostMovesKeepInvariant : Obligations.HostMovesKeepInvariant := by
  unfold Obligations.HostMovesKeepInvariant
  exact fun _ _ _ => HostMove.apply_keeps_inv

/-- Settles O4, by induction on the moves that reached the state. -/
theorem reachableStatesSatisfyInvariant : Obligations.ReachableStatesSatisfyInvariant := by
  unfold Obligations.ReachableStatesSatisfyInvariant
  exact fun _ => Reachable.inv

/-! ### The three things a step can do -/

/-- The 13 opcode bytes (30_encoding.md R57), in rising order. -/
theorem byte_mem_of_opcode (o : Opcode) :
    o.byte ∈ ([0x01, 0x11, 0x45, 0x46, 0x47, 0x50, 0x54, 0x55, 0x56, 0x82, 0xA0, 0xA2, 0xA7] : List Byte) := by
  cases o <;> decide

/-- In Running, an illegal opcode takes IllegalInstructionError. -/
theorem step_of_illegal {s : State} (hr : s.isRunning = true) (ho : Opcode.ofByte (fetchOpcode s) = none) :
    step s = .next (raiseFault .illegalInstruction (fetchOpcode s) s) := by
  rw [step, if_pos hr, decode_fetchBytes_of_illegal ho]

/-- Settles O12: a byte outside the 13 is no mnemonic's, and the fault latches pc and the fetched byte. -/
theorem illegalOpcodeTakesTheFault : Obligations.IllegalOpcodeTakesTheFault := by
  unfold Obligations.IllegalOpcodeTakesTheFault
  intro s hrun hfault hir
  have ho : Opcode.ofByte (readMem s s.pc) = none :=
    Opcode.ofByte_eq_none fun o hbyte => hir (hbyte ▸ byte_mem_of_opcode o)
  exact step_of_illegal ((isRunning_iff s).mpr ⟨hrun, hfault⟩) ho

/-- Settles O11: fetching as many bytes as the opcode calls for decodes like the three bytes at pc. -/
theorem stepRunsTheDecodedInstruction : Obligations.StepRunsTheDecodedInstruction := by
  unfold Obligations.StepRunsTheDecodedInstruction
  intro s i rest hrun hfault hd
  exact step_of_decode ((isRunning_iff s).mpr ⟨hrun, hfault⟩) hd

theorem step_total (s : State) : ∃ t, step s = .next t := by
  obtain ⟨-, h⟩ | ⟨-, -, h⟩ | ⟨-, i, -, -, h⟩ := step_cases s
  · exact ⟨_, h⟩
  · exact ⟨_, h⟩
  · exact ⟨_, h.trans (exec_eq i s)⟩

/-- Settles O14: an ignored request, the fault of an illegal opcode, and every instruction answer a next state. -/
theorem stepAlwaysAnswersNext : Obligations.StepAlwaysAnswersNext := by
  unfold Obligations.StepAlwaysAnswersNext
  exact step_total

/-! ### The budgeted run -/

theorem isRunning_iff_macroState (s : State) : s.isRunning = true ↔ s.macroState = .running :=
  (isRunning_iff s).trans (macroState_running_iff s).symm

/-- Outside Running a run request ends at once, whatever the budget. -/
theorem hostRun_of_not_running {s : State} (h : s.macroState ≠ .running) (k : Nat) : hostRun k s = .next s := by
  cases k with
  | zero => rfl
  | succ k => rw [hostRun, if_neg (mt (isRunning_iff_macroState s).mp h)]

/-- From every state, ended runs included, one more unit of budget is one step request first. -/
theorem hostRun_succ_of_next {s t : State} (h : step s = .next t) (k : Nat) : hostRun (k + 1) s = hostRun k t := by
  by_cases hm : s.macroState = .running
  · rw [hostRun, if_pos ((isRunning_iff_macroState s).mpr hm), h]
  · obtain rfl := Host.Outcome.next.inj ((step_of_not_running hm).symm.trans h)
    rw [hostRun_of_not_running hm, hostRun_of_not_running hm]

/-- The host's test for Running before each step changes nothing. -/
theorem hostRun_eq_run (k : Nat) (s : State) : hostRun k s = core.run k s := by
  induction k generalizing s with
  | zero => rfl
  | succ k ih =>
    obtain ⟨t, ht⟩ := step_total s
    rw [hostRun_succ_of_next ht, ih]
    exact (run_succ_of_next core k ht).symm

/-- A budget may be spent in two parts. -/
theorem hostRun_add {k : Nat} {s t : State} (h : hostRun k s = .next t) (n : Nat) :
    hostRun (k + n) s = hostRun n t := by
  induction k generalizing s with
  | zero =>
    obtain rfl := Host.Outcome.next.inj h
    rw [Nat.zero_add]
  | succ k ih =>
    obtain ⟨u, hu⟩ := step_total s
    rw [hostRun_succ_of_next hu] at h
    rw [Nat.succ_add, hostRun_succ_of_next hu, ih h]

/-- Settles O42: the step is total, so a run is that many step requests; what budget remains where the run has ended is
spent on requests that are ignored. -/
theorem runIsRepeatedSteps : Obligations.RunIsRepeatedSteps := by
  unfold Obligations.RunIsRepeatedSteps
  refine ⟨hostRun_eq_run, fun k n s t h hend => ?_⟩
  rw [hostRun_add h, hostRun_of_not_running hend]

end Sys2Proof.Machine

/-! PROOF. HALT and PRN: the latch RUN, the value on the output port, and the statements of 41_system_and_output.md. -/

namespace Sys2Proof.Machine

/-! ### HALT and the running latch -/

theorem exec_halt (s : State) : exec .halt s = .next { s with run := false, pc := s.pc + 1 } := by
  rw [exec_of_wellFormed rfl, effect, advance, nextPc_of_nops_zero rfl]
  rfl

/-- Only HALT writes RUN. -/
theorem effect_run_of_ne_halt {i : Instr} (h : i ≠ .halt) (s : State) : (effect i s).run = s.run := by
  cases i with
  | halt => exact absurd rfl h
  | jne => rw [effect_jne, setPc_run]
  | jeq => rw [effect_jeq, setPc_run]
  | _ => rfl

theorem exec_run_of_ne_halt {i : Instr} {s t : State} (h : exec i s = .next t) (hi : i ≠ .halt) : t.run = s.run := by
  obtain ⟨-, rfl⟩ | ⟨-, rfl⟩ := exec_cases h
  · exact effect_run_of_ne_halt hi s
  · rfl

/-- A HALT executed with no fault latched leaves the core Halted. -/
theorem macroState_of_exec_halt {s t : State} (h : exec .halt s = .next t) (hf : s.fault = none) :
    t.macroState = .halted := by
  obtain rfl := Host.Outcome.next.inj ((exec_halt s).symm.trans h)
  exact (macroState_halted_iff _).mpr ⟨rfl, hf⟩

/-- Settles O18: after HALT the core is Halted, where a step request is ignored, and no other effect, nor the fault of
an illegal operand, writes RUN. -/
theorem haltStopsTheCore : Obligations.HaltStopsTheCore := by
  unfold Obligations.HaltStopsTheCore
  refine ⟨rfl, exec_halt, fun s t h hf => ?_, fun _ _ _ => exec_run_of_ne_halt⟩
  have hhalted : t.macroState = .halted := macroState_of_exec_halt h hf
  exact ⟨hhalted, step_of_not_running (by rw [hhalted]; nofun)⟩

/-! ### PRN and the output port -/

/-- The output port shows the value that was appended to OUT. -/
theorem emitted_of_out_append {s t : State} {v : Byte} (h : t.out = s.out ++ [v]) : emitted s t = some v := by
  rw [emitted, h, List.drop_left, List.head?_cons]

theorem exec_prn_of_lt {r : Byte} (hr : r.toNat < 8) (s : State) :
    exec (.prn r) s = .next { s with out := s.out ++ [s.regs[r.toNat]], pc := s.pc + 2 } := by
  refine (withReg_of_lt .prn s _ hr).trans (congrArg _ ?_)
  rw [advance, nextPc_of_nops_one rfl]
  rfl

/-- Settles O19: the two cases of the operand check; what a legal PRN appends to OUT is what the port shows. -/
theorem prnEmitsRegister : Obligations.PrnEmitsRegister := by
  unfold Obligations.PrnEmitsRegister
  exact fun r s => ⟨rfl, fun hr => ⟨_, exec_prn_of_lt hr s, rfl, emitted_of_out_append rfl⟩, withReg_of_ge .prn s _⟩

end Sys2Proof.Machine

/-! PROOF. LDI: the statement of 42_data_movement.md. -/

namespace Sys2Proof.Machine

theorem exec_ldi_of_lt {r : Byte} (hr : r.toNat < 8) (imm8 : Byte) (s : State) :
    exec (.ldi r imm8) s = .next { s with regs := s.regs.set r.toNat imm8, pc := s.pc + 3 } := by
  refine (withReg_of_lt .ldi s _ hr).trans (congrArg _ ?_)
  rw [advance, nextPc_of_nops_two rfl]
  rfl

/-- Settles O21: the two cases of the operand check, which looks at r only; the immediate goes to the register whole. -/
theorem ldiLoadsImmediate : Obligations.LdiLoadsImmediate := by
  unfold Obligations.LdiLoadsImmediate
  exact fun r imm8 s => ⟨rfl, fun hr => exec_ldi_of_lt hr imm8 s, withReg_of_ge .ldi s _⟩

end Sys2Proof.Machine

/-! PROOF. ADD and MUL: what the ALU writes back, and the statements of 43_alu.md about them. -/

namespace Sys2Proof.Machine

/-- The ADD operation drops the carry (43_alu.md R120). -/
theorem toNat_aluAdd (x y : Byte) : (aluAdd x y).toNat = (x.toNat + y.toNat) % 256 := BitVec.toNat_ofNat ..

/-- The MUL operation drops the high byte of the product (43_alu.md R120). -/
theorem toNat_aluMul (x y : Byte) : (aluMul x y).toNat = (x.toNat * y.toNat) % 256 := BitVec.toNat_ofNat ..

/-- A three-byte instruction on two legal registers that writes a function of both to the first and advances: that
register and pc change, nothing else. Both operands are read before the write, also where they name one register. -/
theorem withRegs_writeReg_of_lt {o : Opcode} (ho : nopsField o.byte = 2) {a b : Byte} (ha : a.toNat < 8)
    (hb : b.toNat < 8) (f : Byte → Byte → Byte) (s : State) :
    withRegs o a b s (fun x y => advance o (writeReg x (f (readReg s x) (readReg s y)) s)) =
      .next { s with regs := s.regs.set a.toNat (f s.regs[a.toNat] s.regs[b.toNat]), pc := s.pc + 3 } := by
  refine (withRegs_of_lt o s _ ha hb).trans (congrArg _ ?_)
  rw [advance, nextPc_of_nops_two ho]
  rfl

/-- Settles O22: the two cases of the operand check; a legal ADD writes back the sum without its carry. -/
theorem addWrapsModulo256 : Obligations.AddWrapsModulo256 := by
  unfold Obligations.AddWrapsModulo256
  exact fun a b s => ⟨rfl,
    fun ha hb => ⟨_, toNat_aluAdd .., withRegs_writeReg_of_lt (o := .add) rfl ha hb aluAdd s⟩,
    withRegs_of_ge .add s _⟩

/-- Settles O23: the two cases of the operand check; a legal MUL writes back the low byte of the product. -/
theorem mulWrapsModulo256 : Obligations.MulWrapsModulo256 := by
  unfold Obligations.MulWrapsModulo256
  exact fun a b s => ⟨rfl,
    fun ha hb => ⟨_, toNat_aluMul .., withRegs_writeReg_of_lt (o := .mul) rfl ha hb aluMul s⟩,
    withRegs_of_ge .mul s _⟩

end Sys2Proof.Machine

/-! PROOF. PUSH, POP and CALL: the stack pointer and the cell under it, and the statements of 44_stack.md. -/

namespace Sys2Proof.Machine

theorem sp_decSp (s : State) : sp (decSp s) = sp s - 1 := readReg_writeReg_self 7 _ s

theorem sp_incSp (s : State) : sp (incSp s) = sp s + 1 := readReg_writeReg_self 7 _ s

/-! ### PUSH and CALL: the decrement, then the store -/

/-- A register read after the pre-decrement, the stack pointer itself among them (44_stack.md R140). -/
theorem readReg_decSp {r : Byte} (hr : r.toNat < 8) (s : State) :
    readReg (decSp s) (regPort r) = if r = 7 then s.regs[7] - 1 else s.regs[r.toNat] := by
  split_ifs with h7
  · subst h7
    exact sp_decSp s
  · exact readReg_decSp_of_ne hr h7 s

/-- The push of one byte as one update of the state: the store is at the decremented pointer. -/
theorem storeAtSp_decSp (v : Byte) (s : State) : storeAtSp v (decSp s) =
    { s with regs := s.regs.set 7 (s.regs[7] - 1), mem := Memory.write s.mem (s.regs[7] - 1) v } := by
  rw [storeAtSp, sp_decSp]
  rfl

theorem exec_push_of_lt {r : Byte} (hr : r.toNat < 8) (s : State) : exec (.push r) s = .next { s with
    regs := s.regs.set 7 (s.regs[7] - 1)
    mem := Memory.write s.mem (s.regs[7] - 1) (if r = 7 then s.regs[7] - 1 else s.regs[r.toNat])
    pc := s.pc + 2 } := by
  have hw : (Instr.push r).wellFormed = true := decide_eq_true hr
  rw [exec_of_wellFormed hw, effect, readReg_decSp hr, storeAtSp_decSp, advance, nextPc_of_nops_one rfl]
  rfl

theorem exec_call_of_lt {r : Byte} (hr : r.toNat < 8) (s : State) : exec (.call r) s = .next { s with
    regs := s.regs.set 7 (s.regs[7] - 1)
    mem := Memory.write s.mem (s.regs[7] - 1) (s.pc + 2)
    pc := if r = 7 then s.regs[7] - 1 else s.regs[r.toNat] } := by
  have hw : (Instr.call r).wellFormed = true := decide_eq_true hr
  rw [exec_of_wellFormed hw, effect, readReg_decSp hr, storeAtSp_decSp, nextPc_of_nops_one rfl]
  rfl

/-- Settles O26: the two cases of the operand check; a legal PUSH reads its register after the decrement. -/
theorem pushStoresBelowTheStackPointer : Obligations.PushStoresBelowTheStackPointer := by
  unfold Obligations.PushStoresBelowTheStackPointer
  exact fun r s => ⟨rfl, fun hr => exec_push_of_lt hr s, withReg_of_ge .push s _⟩

/-- Settles O33: the two cases of the operand check; a legal CALL reads its target after the decrement. -/
theorem callPushesReturnAddress : Obligations.CallPushesReturnAddress := by
  unfold Obligations.CallPushesReturnAddress
  exact fun r s => ⟨rfl, fun hr => exec_call_of_lt hr s, withReg_of_ge .call s _⟩

/-! ### POP: the write, then the increment -/

theorem seven_ne_toNat {r : Byte} (h : r ≠ 7) : 7 ≠ r.toNat := fun e => h (BitVec.eq_of_toNat_eq e.symm)

/-- The registers after a POP: the popped byte is written first, so that POP 7 increments that byte. -/
theorem regs_incSp_writeReg {r : Byte} (hr : r.toNat < 8) (v : Byte) (s : State) :
    (incSp (writeReg ⟨r.toNat, hr⟩ v s)).regs =
      if r = 7 then s.regs.set 7 (v + 1) else (s.regs.set r.toNat v).set 7 (s.regs[7] + 1) := by
  rw [incSp_regs, writeReg_regs]
  split_ifs with h7
  · subst h7
    change (s.regs.set 7 v).set 7 ((s.regs.set 7 v)[7] + 1) = _
    rw [Vector.getElem_set_self, Vector.set_set]
  · rw [Vector.getElem_set_ne _ _ (seven_ne_toNat h7).symm]

theorem exec_pop_of_lt {r : Byte} (hr : r.toNat < 8) (s : State) : exec (.pop r) s = .next { s with
    regs := if r = 7 then s.regs.set 7 (readMem s s.regs[7] + 1)
      else (s.regs.set r.toNat (readMem s s.regs[7])).set 7 (s.regs[7] + 1)
    pc := s.pc + 2 } := by
  refine (withReg_of_lt .pop s _ hr).trans (congrArg _ ?_)
  rw [← regs_incSp_writeReg hr, advance, nextPc_of_nops_one rfl]
  rfl

/-- Settles O27: the two cases of the operand check; a legal POP writes its register before the increment. -/
theorem popLoadsFromTheStackPointer : Obligations.PopLoadsFromTheStackPointer := by
  unfold Obligations.PopLoadsFromTheStackPointer
  exact fun r s => ⟨rfl, fun hr => exec_pop_of_lt hr s, withReg_of_ge .pop s _⟩

/-- Settles O28: the POP reads the pushed byte back, and its increment undoes the decrement. -/
theorem pushThenPopRestores : Obligations.PushThenPopRestores := by
  unfold Obligations.PushThenPopRestores
  intro r hr s u h7 hm
  refine ⟨_, exec_push_of_lt hr s, fun hsp hcell => ⟨_, exec_pop_of_lt hr u, ?_, ?_⟩⟩
  · have hpopped : readMem u u.regs[7] = s.regs[r.toNat] := by
      rw [hsp, hcell]
      simp only [readMem_eq, Vector.getElem_set_self, Memory.read_write_self hm, if_neg h7]
    simp only [if_neg h7, Vector.getElem_set_ne _ _ (seven_ne_toNat h7), Vector.getElem_set_self, hpopped]
  · simp only [if_neg h7, Vector.getElem_set_self, hsp, BitVec.sub_add_cancel]

/-! ### The stack pointer along a sequence of instructions -/

/-- A destination other than x[7] leaves the stack pointer to the pushes and the pops. -/
theorem not_mem_destination {r : Byte} (h : (r == 7) = false) : 7 ∉ [r.toNat] :=
  List.mem_singleton.not.mpr (seven_ne_toNat (beq_eq_false_iff_ne.mp h))

/-- An instruction that does not name x[7] as its destination moves the stack pointer by its pops less its pushes. -/
theorem sp_effect {i : Instr} (hw : i.wellFormed = true) (hd : writesSpExplicitly i = false) (s : State) :
    sp (effect i s) = sp s + BitVec.ofNat 8 (popCount i) - BitVec.ofNat 8 (pushCount i) := by
  have hkept (h : 7 ∉ writtenRegs i) : sp (effect i s) = sp s + 0#8 - 0#8 :=
    (effect_regs_of_not_written hw s (r := 7) h).trans (BitVec.add_sub_cancel _ 0).symm
  cases i with
  | push | call => exact (sp_decSp s).trans (congrArg (· - 1) (BitVec.add_zero _).symm)
  | ret => exact (sp_incSp s).trans (BitVec.sub_zero _).symm
  | pop r =>
    have hr : Config.spIndex ≠ regPort r := (regPort_ne hw (seven_ne_toNat (beq_eq_false_iff_ne.mp hd))).symm
    exact ((sp_incSp _).trans (congrArg (· + 1) (readReg_writeReg_ne _ s hr))).trans (BitVec.sub_zero _).symm
  | ldi | mul | add => exact hkept (not_mem_destination hd)
  | halt | prn | cmp | jmp | jne | jeq => exact hkept List.not_mem_nil

theorem execAll_cons_of_wellFormed {i : Instr} (hw : i.wellFormed = true) (is : List Instr) (s : State) :
    execAll (i :: is) s = execAll is (effect i s) := by
  rw [execAll, exec_of_wellFormed hw]

/-- Over a sequence the moves of the stack pointer add up (44_stack.md R140). -/
theorem sp_execAll {is : List Instr} {s t : State} (h : execAll is s = .next t)
    (his : ∀ i ∈ is, i.wellFormed = true ∧ writesSpExplicitly i = false) :
    sp t = sp s + BitVec.ofNat 8 (is.map popCount).sum - BitVec.ofNat 8 (is.map pushCount).sum := by
  induction is generalizing s with
  | nil =>
    obtain rfl := Host.Outcome.next.inj h
    exact (BitVec.add_sub_cancel _ 0).symm
  | cons i is ih =>
    obtain ⟨⟨hw, hd⟩, hrest⟩ := List.forall_mem_cons.mp his
    rw [ih ((execAll_cons_of_wellFormed hw is s).symm.trans h) hrest, sp_effect hw hd]
    simp only [List.map_cons, List.sum_cons, BitVec.ofNat_add]
    abel

/-- Settles O29: the sum of the moves over the sequence, read modulo 256; within 244 bytes of 0xF4 nothing wraps. -/
theorem stackPointerTracksPushesAndPops : Obligations.StackPointerTracksPushesAndPops := by
  unfold Obligations.StackPointerTracksPushesAndPops
  intro is s t h his
  have hmod : (t.regs[7].toNat + (is.map pushCount).sum) % 256 = (s.regs[7].toNat + (is.map popCount).sum) % 256 := by
    have hsp := sp_execAll h his
    rw [BitVec.eq_sub_iff_add_eq] at hsp
    simpa only [sp_eq, BitVec.toNat_add, BitVec.toNat_ofNat, Nat.reducePow, Nat.add_mod_mod] using
      congrArg BitVec.toNat hsp
  refine ⟨hmod, fun h0 _ _ => ?_⟩
  have h244 : s.regs[7].toNat = 244 := congrArg BitVec.toNat h0
  have hlt : t.regs[7].toNat < 256 := t.regs[7].isLt
  omega

end Sys2Proof.Machine

/-! PROOF. JMP, JEQ, JNE and RET: where each leaves pc, and the statements of 45_control_transfer.md about them. -/

namespace Sys2Proof.Machine

/-! ### RET -/

theorem exec_ret (s : State) :
    exec .ret s = .next { s with pc := readMem s s.regs[7], regs := s.regs.set 7 (s.regs[7] + 1) } := rfl

/-- Settles O34: after a CALL the popped byte is the pushed return address, and the increment undoes the decrement. -/
theorem retPopsPc : Obligations.RetPopsPc := by
  unfold Obligations.RetPopsPc
  refine ⟨rfl, exec_ret, fun r s u hr hm => ⟨_, exec_call_of_lt hr s, fun hsp hcell => ⟨_, exec_ret u, ?_, ?_⟩⟩⟩
  · change readMem u u.regs[7] = _
    rw [hsp, hcell]
    simp only [readMem_eq, Vector.getElem_set_self, Memory.read_write_self hm]
  · simp only [Vector.getElem_set_self, hsp, BitVec.sub_add_cancel]

/-! ### JMP and the branches -/

/-- Settles O30: the two cases of the operand check; a legal JMP sets pc to its register, which is all it does. -/
theorem jmpGoesToRegister : Obligations.JmpGoesToRegister := by
  unfold Obligations.JmpGoesToRegister
  exact fun r s => ⟨rfl, withReg_of_lt .jmp s _, withReg_of_ge .jmp s _⟩

theorem exec_jeq_of_lt {r : Byte} (hr : r.toNat < 8) (s : State) : exec (.jeq r) s =
    .next { s with pc := if s.fl.getLsbD 0 = true then s.regs[r.toNat] else s.pc + 2 } := by
  refine (withReg_of_lt .jeq s _ hr).trans (congrArg _ ?_)
  rw [← nextPc_of_nops_one (o := .jeq) rfl s]
  exact (apply_ite (setPc · s) ..).symm

theorem exec_jne_of_lt {r : Byte} (hr : r.toNat < 8) (s : State) : exec (.jne r) s =
    .next { s with pc := if s.fl.getLsbD 0 = false then s.regs[r.toNat] else s.pc + 2 } := by
  refine (withReg_of_lt .jne s _ hr).trans (congrArg _ ?_)
  rw [← nextPc_of_nops_one (o := .jne) rfl s, flagE]
  cases s.fl.getLsbD 0 with
  | false => rfl
  | true => rfl

/-- Settles O31: the two cases of the operand check, which does not look at FL; a legal JEQ sets pc by E. -/
theorem jeqJumpsWhenEqual : Obligations.JeqJumpsWhenEqual := by
  unfold Obligations.JeqJumpsWhenEqual
  exact fun r s => ⟨rfl, fun hr => exec_jeq_of_lt hr s, withReg_of_ge .jeq s _⟩

/-- After a CMP, E is clear exactly when one of the other two bits is set: bytes that differ are ordered. -/
theorem flagE_clear_iff_of_exec_cmp {a b : Byte} {s t : State} (ha : a.toNat < 8) (hb : b.toNat < 8)
    (h : exec (.cmp a b) s = .next t) :
    t.fl.getLsbD 0 = false ↔ t.fl.getLsbD 1 = true ∨ t.fl.getLsbD 2 = true := by
  obtain ⟨-, hlegal, -⟩ := cmpSetsOneFlag a b s
  obtain ⟨f, hf, hE, hG, hL⟩ := hlegal ha hb
  obtain rfl := Host.Outcome.next.inj (hf.symm.trans h)
  rw [← Bool.not_eq_true, hE, hG, hL, ← BitVec.toNat_inj]
  omega

/-- On one FL exactly one of JEQ and JNE jumps. -/
theorem jeq_jne_opposite {r : Byte} (hr : r.toNat < 8) (s : State) :
    ∃ t u : State, exec (.jeq r) s = .next t ∧ exec (.jne r) s = .next u ∧
      (t.pc = s.regs[r.toNat] ∧ u.pc = s.pc + 2 ∨ t.pc = s.pc + 2 ∧ u.pc = s.regs[r.toNat]) := by
  refine ⟨_, _, exec_jeq_of_lt hr s, exec_jne_of_lt hr s, ?_⟩
  cases s.fl.getLsbD 0 with
  | true => exact .inl ⟨rfl, rfl⟩
  | false => exact .inr ⟨rfl, rfl⟩

/-- Settles O32: the two cases of the operand check, the flags that a CMP leaves, and JEQ and JNE side by side. -/
theorem jneJumpsWhenNotEqual : Obligations.JneJumpsWhenNotEqual := by
  unfold Obligations.JneJumpsWhenNotEqual
  exact fun r s => ⟨rfl, fun hr => exec_jne_of_lt hr s, withReg_of_ge .jne s _,
    fun _ _ _ => flagE_clear_iff_of_exec_cmp, fun hr => jeq_jne_opposite hr s⟩

end Sys2Proof.Machine

/-! PROOF. Precise faults: what 60_exceptions.md says a faulting step leaves. -/

namespace Sys2Proof.Machine

/-- An instruction raises a fault through its operand check alone: its effect leaves the latch clear. -/
theorem exec_of_fault_raised {i : Instr} {s t : State} (hs : s.fault = none) (h : exec i s = .next t)
    (ht : t.fault ≠ none) : t = raiseFault .operandAddress i.opcode.byte s := by
  obtain ⟨-, rfl⟩ | ⟨-, rfl⟩ := exec_cases h
  · exact absurd ((effect_fault i s).trans hs) ht
  · rfl

/-- A step raises a fault on the byte it fetched, and by nothing but the raise. -/
theorem step_of_fault_raised {s t : State} (hs : s.fault = none) (h : step s = .next t) (ht : t.fault ≠ none) :
    ∃ c : FaultCode, t = raiseFault c (fetchOpcode s) s := by
  obtain ⟨-, he⟩ | ⟨-, -, he⟩ | ⟨-, i, -, hbyte, he⟩ := step_cases s
  · obtain rfl := Host.Outcome.next.inj (he.symm.trans h)
    exact absurd hs ht
  · exact ⟨.illegalInstruction, Host.Outcome.next.inj (h.symm.trans he)⟩
  · exact ⟨.operandAddress, hbyte ▸ exec_of_fault_raised hs (he.symm.trans h) ht⟩

/-- Settles O15: of what a step can do, an ignored request and a completed instruction leave the latch clear. -/
theorem faultingStepChangesOnlyTheLatch : Obligations.FaultingStepChangesOnlyTheLatch := by
  unfold Obligations.FaultingStepChangesOnlyTheLatch
  exact fun _ _ => step_of_fault_raised

end Sys2Proof.Machine

/-! PROOF. The operand fault, the reset state, the opcode map's words, the host's accesses to memory and the ports: the
statements about them in 60_exceptions.md, 70_reset_and_hazards.md, 30_encoding.md and 20_memory.md. -/

namespace Sys2Proof.Machine

/-! ### The operand fault -/

theorem headD_encode (i : Instr) (b : Byte) : (encode i).headD b = i.opcode.byte := by
  rw [List.headD_eq_head?_getD, encode_head, Option.getD_some]

/-- Settles O16: the operand check decides between the fault, on the instruction's own opcode byte, and the effect,
which leaves the latch alone. -/
theorem illegalRegisterOperandTakesTheFault : Obligations.IllegalRegisterOperandTakesTheFault := by
  unfold Obligations.IllegalRegisterOperandTakesTheFault
  intro i s
  constructor
  · intro hw
    rw [headD_encode]
    exact exec_of_not_wellFormed hw s
  · intro hw
    exact ⟨effect i s, exec_of_wellFormed hw s, effect_fault i s⟩

/-! ### Reset -/

theorem readMem_reset (a : Byte) : readMem State.reset a = 0x00 := Memory.read_nil a

theorem regs_reset (r : RegIdx) : State.reset.regs[r] = if r = 7 then 0xF4 else 0x00 := by
  decide +revert

/-- Settles O1: pc, the latches, FL and OUT stand in the reset state; registers and cells are read one by one. -/
theorem resetGivesTheTabledValues : Obligations.ResetGivesTheTabledValues := by
  unfold Obligations.ResetGivesTheTabledValues
  exact ⟨rfl, regs_reset, rfl, rfl, rfl, readMem_reset, rfl⟩

/-- Settles O2: no cell is listed, no flag is set, and no fault is latched. -/
theorem resetSatisfiesInvariant : Obligations.ResetSatisfiesInvariant := by
  unfold Obligations.ResetSatisfiesInvariant
  exact (inv_iff _).mpr ⟨Memory.wf_nil, rfl, faultLegal_of_fault_none rfl⟩

/-- Settles O5: the byte fetched after reset is 0x00, which is no opcode's. -/
theorem firstStepWithoutImageFaults : Obligations.FirstStepWithoutImageFaults := by
  unfold Obligations.FirstStepWithoutImageFaults
  have hir : fetchOpcode State.reset = 0x00 := readMem_reset _
  have ho : Opcode.ofByte (fetchOpcode State.reset) = none := by
    rw [hir]
    decide
  exact step_of_illegal ((isRunning_iff _).mpr ⟨rfl, rfl⟩) ho

/-! ### Words of the opcode map -/

/-- Settles O6: each word is the encoding of its instruction, with nothing after it. -/
theorem specWordsDecode : Obligations.SpecWordsDecode := by
  unfold Obligations.SpecWordsDecode
  exact ⟨decode_encode_append .halt [], decode_encode_append (.ldi 3 0xFF) [], decode_encode_append (.add 0 7) [],
    decode_encode_append (.push 1) [], decode_encode_append (.jeq 2) []⟩

/-! ### The host's accesses to memory -/

theorem hostRead_hostWrite_self {s : State} (hm : Memory.wf s.mem = true) (a : Byte) (v : Nat) :
    hostRead a (hostWrite a v s) = BitVec.ofNat 8 v :=
  Memory.read_write_self hm a _

theorem hostRead_hostWrite_ne {a b : Byte} (h : b ≠ a) (v : Nat) (s : State) :
    hostRead b (hostWrite a v s) = hostRead b s :=
  Memory.read_write_ne s.mem _ h

/-- Settles O41: the written cell holds the value's low 8 bits, and a write is an update of the memory alone. -/
theorem hostWriteThenReadReturnsTheByte : Obligations.HostWriteThenReadReturnsTheByte := by
  unfold Obligations.HostWriteThenReadReturnsTheByte
  intro s a v hm
  refine ⟨?_, fun b hb => hostRead_hostWrite_ne hb v s, rfl⟩
  rw [hostRead_hostWrite_self hm, BitVec.toNat_ofNat]

/-! ### The ports -/

theorem FaultCode.number_eq (c : FaultCode) : c.number = if c = .illegalInstruction then 1 else 2 := by
  cases c <;> rfl

theorem FaultCode.number_ne_capacityError (c : FaultCode) : c.number ≠ Fault.capacityError.number := by
  cases c <;> decide

theorem observe_faultCode_of_none {s : State} (h : s.fault = none) : (observe s).faultCode = 0 := by
  simp only [observe, h]

theorem observe_faultCode_of_some {s : State} {f : FaultRecord} (h : s.fault = some f) :
    (observe s).faultCode = f.code.number := by
  simp only [observe, h]

theorem observe_faulted_iff (s : State) : (observe s).faulted = true ↔ s.fault ≠ none :=
  Option.isSome_iff_ne_none

/-- The port shows 0 or the code of a record, and code 3 is neither. -/
theorem observe_faultCode_ne_capacityError (s : State) : (observe s).faultCode ≠ Fault.capacityError.number := by
  cases h : s.fault with
  | none =>
    rw [observe_faultCode_of_none h]
    decide
  | some f =>
    rw [observe_faultCode_of_some h]
    exact f.code.number_ne_capacityError

/-- Settles O43: the ports of the latches, pc, FL and the registers show them as they are; those of the fault are read
with FAULT empty and with a record in it. -/
theorem portsShowTheState : Obligations.PortsShowTheState := by
  unfold Obligations.PortsShowTheState
  intro s
  refine ⟨rfl, observe_faulted_iff s, observe_faultCode_of_none, fun f hf => ⟨?_, ?_, ?_⟩, rfl, rfl, rfl, rfl,
    observe_faultCode_ne_capacityError s⟩
  · exact congrArg (Option.map (·.addr)) hf
  · exact congrArg (Option.map (·.opcode)) hf
  · rw [observe_faultCode_of_some hf, FaultCode.number_eq]

end Sys2Proof.Machine
